-- ==== Sys2Proof/Word.lean ====
section
/-! DEFINITION. The widths the spec fixes: a byte of the buffer, the 64-bit value of the unsigned codec,
the 7 payload bits of a group, and the 2-bit command word (R6, R10, R70, R76). -/

namespace Sys2Proof

/-- One cell of `BUF`, one group of a sequence: 8 bits (R22, R70). -/
abbrev Byte := BitVec 8

/-- The width of `VAL`, `N` and `A64` (R20, R28, R29). -/
abbrev Word64 := BitVec 64

/-- The 7 value bits of a group (R70). -/
abbrev Payload := BitVec 7

/-- A `CMD2` word: bit 1 `kind`, bit 0 `dir` (R76). -/
abbrev CmdCode := BitVec 2

end Sys2Proof
end

