-- ==== Sys2Proof/Machine/Helpers.lean ====
section
/-! DEFINITION. The helper units of 44_helpers.md: pure functions, none of them a command. The 64-bit units
work on bit vectors; the arbitrary-precision units on naturals of unbounded width (R165). -/

namespace Sys2Proof.Machine

/-! ### Sizes -/

/-- R150: the number of bits of `m` without leading zeros; 0 for 0. -/
def bitlen (m : Nat) : Nat := if m = 0 then 0 else Nat.log2 m + 1

/-- R150: the number of bytes of the shortest byte representation. -/
def bytelen (m : Nat) : Nat := (bitlen m + 7) / 8

/-! ### The 64-bit units -/

/-- R151: the barrel shifter. Bits shifted to position 64 or above are dropped; 64 or more gives 0. -/
def shl64 (v : Word64) (s : Nat) : Word64 := v <<< s

/-- R152: the unsigned encoder's shifter, a logical right shift by 7. -/
def shr64 (v : Word64) : Word64 := v >>> 7

/-! ### The arbitrary-precision units -/

/-- R154: `DivMod(w, 128)`, quotient and remainder. -/
def divMod128 (w : Nat) : Nat × Nat := (w / 128, w % 128)

/-- R155: increment with full carry, no wrap. -/
def add1 (m : Nat) : Nat := m + 1

/-- R156: bit `j` of `m`. -/
def getbit (m j : Nat) : Bool := m.testBit j

/-- R156: `m` with bit `j` made 1. -/
def setbit (m j : Nat) : Nat := m ||| 2 ^ j

/-- R120, R160, R161: `m` with the `k` bits from position `lo` up made 1, one `setbit` each. -/
def setbits (m lo : Nat) : Nat → Nat
  | 0 => m
  | k + 1 => setbit (setbits m lo k) (lo + k)

/-- The low `k` bytes of `m`, the most significant first. -/
def bytesBE (m : Nat) : Nat → List Byte
  | 0 => []
  | k + 1 => BitVec.ofNat 8 (m / 256 ^ k) :: bytesBE m k

/-- R157, byte export: the shortest representation, most significant byte first. -/
def toBytesBE (m : Nat) : List Byte := bytesBE m (bytelen m)

/-- R157, byte import: `sum over j of B[j] * 256^(L-1-j)`. -/
def fromBytesBE (bs : List Byte) : Nat := bs.foldl (fun acc b => 256 * acc + b.toNat) 0

/-- R158: every bit of every byte of the shortest representation inverted. -/
def flipBytes (m : Nat) : Nat := fromBytesBE ((toBytesBE m).map (fun b => ~~~b))

/-- R159: "flip every bit and add 1". -/
def twosComplement (m : Nat) : Nat := add1 (flipBytes m)

/-- R160, the encoder's sign extension: bits `lo..hi-1` set, `hi = max(size, 7)`, `lo = hi - 7`. -/
def signFill7 (q size : Nat) : Nat := setbits q (max size 7 - 7) 7

/-- R161: the padded width `Wd = 8 * ceil(T / 8)`. -/
def padWidth (t : Nat) : Nat := 8 * ((t + 7) / 8)

/-- R161, the decoder's sign extension: bits `T..Wd-1` set. -/
def signPad8 (a t : Nat) : Nat := setbits a t (padWidth t - t)

/-- R163: `w` restricted to `size` bits is all ones. -/
def allOnes (w size : Nat) : Bool := w % 2 ^ size == 2 ^ size - 1

end Sys2Proof.Machine
end

