-- ==== Sys2Proof/Config.lean ====
section
/-! DEFINITION. What is fixed when the block is built (R7, R26), and the free values: the values the spec
calls unspecified (R37, R38, R39), each an opaque constant with no body, so that no proof can see what it is. -/

namespace Sys2Proof

/-- A capacity parameter: "natural number or `unbounded`" (R7). -/
inductive Capacity where
  | unbounded
  | bounded (n : Nat)
  deriving DecidableEq, Repr

/-- `n` is at most the capacity. -/
def Capacity.admits : Capacity → Nat → Bool
  | .unbounded, _ => true
  | .bounded c, n => n ≤ c

/-- A natural kept within `0..c`: it bounds a free value by the limit the spec sets for its register. -/
def Capacity.within : Capacity → Nat → Nat
  | .unbounded, n => n
  | .bounded c, n => n % (c + 1)

/-- A natural kept to the bits a register of that many bits has. -/
def Capacity.lowBits : Capacity → Nat → Nat
  | .unbounded, n => n
  | .bounded c, n => n % 2 ^ c

/-- What `decodeU64` does when payload bits do not fit 64 bits (R7, R105, R106). -/
inductive OvfPolicy where
  | fault
  | truncate
  deriving DecidableEq, Repr

/-- The three implementation parameters (R7). They are fixed when the block is built; no step changes them (R26). -/
structure Config where
  magbits : Capacity
  bufcap  : Capacity
  policy  : OvfPolicy
  deriving DecidableEq, Repr

/-- The defaults of R7: both capacities unbounded, overflow policy `fault`. -/
def Config.default : Config := ⟨.unbounded, .unbounded, .fault⟩

/-- FREE VALUE. The byte of cell `i` that nothing has written since reset number `epoch`: drawn once per
cell per reset (R38, R39, 93_implementation_defined.md U9; DESIGN CHOICE, log entry 3). -/
opaque Config.unwrittenByte (epoch i : Nat) : Byte

/-- FREE VALUE. `IDX` after reset number `epoch` (R38, U10; DESIGN CHOICE, log entry 2). -/
opaque Config.resetIdx (epoch : Nat) : Nat
/-- FREE VALUE. `N` after reset number `epoch` (R38, U10; DESIGN CHOICE, log entry 2). -/
opaque Config.resetN (epoch : Nat) : Word64
/-- FREE VALUE. `A64` after reset number `epoch` (R38, U10; DESIGN CHOICE, log entry 2). -/
opaque Config.resetA64 (epoch : Nat) : Word64
/-- FREE VALUE. `W` after reset number `epoch` (R38, U10; DESIGN CHOICE, log entry 2). -/
opaque Config.resetW (epoch : Nat) : Nat
/-- FREE VALUE. `SIZE` after reset number `epoch` (R38, U10; DESIGN CHOICE, log entry 2). -/
opaque Config.resetSize (epoch : Nat) : Nat
/-- FREE VALUE. `NEG` after reset number `epoch` (R38, U10; DESIGN CHOICE, log entry 2). -/
opaque Config.resetNeg (epoch : Nat) : Bool
/-- FREE VALUE. `ACC` after reset number `epoch` (R38, U10; DESIGN CHOICE, log entry 2). -/
opaque Config.resetAcc (epoch : Nat) : Nat

/-- FREE VALUE. What draw number `d` gives a host read of `VAL` while `BUSY = 1` (R37, U8; DESIGN CHOICE, log entry 4). -/
opaque Config.busyVal (d : Nat) : Word64
/-- FREE VALUE. What draw number `d` gives a host read of `BSIGN` while `BUSY = 1` (R37, U8; DESIGN CHOICE, log entry 4). -/
opaque Config.busySign (d : Nat) : Bool
/-- FREE VALUE. What draw number `d` gives a host read of `BMAG` while `BUSY = 1` (R37, U8; DESIGN CHOICE, log entry 4). -/
opaque Config.busyMag (d : Nat) : Nat
/-- FREE VALUE. What draw number `d` gives a host read of `LEN` while `BUSY = 1` (R37, U8; DESIGN CHOICE, log entry 4). -/
opaque Config.busyLen (d : Nat) : Nat
/-- FREE VALUE. What draw number `d` gives a host read of a buffer cell while `BUSY = 1` (R37, U8; DESIGN CHOICE, log entry 4). -/
opaque Config.busyByte (d : Nat) : Byte

/-- FREE VALUE. What draw number `d` leaves in `BMAG` when the host presents a value that does not fit
`MAGBITS` bits, a write whose result the spec does not state (R36; DESIGN CHOICE, log entry 7). -/
opaque Config.overwideMag (d : Nat) : Nat

end Sys2Proof
end

