-- ==== Sys2Proof/Syntax.lean ====
section
/-! DEFINITION. The instructions: the four operations of the command table (R2, R76). -/

namespace Sys2Proof

/-- One constructor per row of spec/opcode_table.json. A command has no operand field and no immediate:
its operands are the registers R40 names (R76). -/
inductive Instr where
  /-- `BUF, LEN <- encoding of VAL` (R90). -/
  | encodeU64
  /-- `VAL <- value of BUF[0..]` (R100). -/
  | decodeU64
  /-- `BUF, LEN <- encoding of BIG` (R115); source alias `FromBigInt`. -/
  | encodeBigSigned
  /-- `BIG <- value of BUF[0..]` (R135); source alias `ToBigInt`. -/
  | decodeBigSigned
  deriving DecidableEq, Repr

end Sys2Proof
end

