-- ==== Sys2Proof/WellFormed.lean ====
section
/-! DEFINITION. What is checked of a term: an instruction (nothing: a command has no operand, R76), a
configuration (the three constraints of R7), and a byte sequence (the complete encodings of R71). -/

namespace Sys2Proof

/-- R76: a command has no operand field, so there is nothing an instruction could get wrong; R77: no
code is reserved. Matched on every constructor, so a new one cannot slip past. -/
def Instr.wellFormed : Instr → Bool
  | .encodeU64 => true
  | .decodeU64 => true
  | .encodeBigSigned => true
  | .decodeBigSigned => true

/-- R7: `MAGBITS >= 1`. -/
def Config.magbitsOk (c : Config) : Bool :=
  match c.magbits with
  | .unbounded => true
  | .bounded m => 1 ≤ m

/-- R7: `BUFCAP >= 10`. -/
def Config.bufcapOk (c : Config) : Bool := c.bufcap.admits 10

/-- R7: `BUFCAP >= floor(MAGBITS/7) + 1`, and `BUFCAP` is `unbounded` when `MAGBITS` is. -/
def Config.encoderFits (c : Config) : Bool :=
  match c.magbits with
  | .unbounded => c.bufcap = .unbounded
  | .bounded m => c.bufcap.admits (m / 7 + 1)

/-- The constraints of R7 together. -/
def Config.wellFormed (c : Config) : Bool := c.magbitsOk && c.bufcapOk && c.encoderFits

/-- R71: every group but the last has its continuation bit set, the last has it clear, and there is at
least one group. -/
def completeEncoding : List Byte → Bool
  | [] => false
  | [b] => !b.getLsbD 7
  | b :: c :: rest => b.getLsbD 7 && completeEncoding (c :: rest)

end Sys2Proof
end

