-- ==== Sys2Proof/Decode.lean ====
section
/-! DEFINITION. The command word `CMD2` (R76): decoding, total on any bytes and rejecting by name, and
after it the encoder, written from the same table. -/

namespace Sys2Proof

/-- R76, `kind`: bit 1, 0 the unsigned-64 codec, 1 the signed-bigint codec. -/
def CmdCode.kind (c : CmdCode) : Bool := c.getLsbD 1

/-- R76, `dir`: bit 0, 0 encode, 1 decode. -/
def CmdCode.dir (c : CmdCode) : Bool := c.getLsbD 0

/-- The operation a command word names (R76). All four values are assigned, so it is total (R77). -/
def decodeCmd (c : CmdCode) : Instr :=
  match CmdCode.kind c, CmdCode.dir c with
  | false, false => .encodeU64
  | false, true  => .decodeU64
  | true,  false => .encodeBigSigned
  | true,  true  => .decodeBigSigned

/-- Why bytes are not a command word. -/
inductive DecodeError where
  /-- There is no byte to read. -/
  | noBytes
  /-- A bit above bit 1 is set: "There is one command length, 2 bits" (R76). -/
  | widerThanCmd2
  deriving DecidableEq, Repr

/-- A byte that holds a command word in its two low bits. -/
def decodeByte (b : Byte) : Except DecodeError Instr :=
  if b.toNat < 4 then .ok (decodeCmd (b.setWidth 2)) else .error .widerThanCmd2

/-- The first command word of a list of bytes, with the bytes after it. -/
def decodeBytes : List Byte → Except DecodeError (Instr × List Byte)
  | [] => .error .noBytes
  | b :: rest =>
    match decodeByte b with
    | .ok i => .ok (i, rest)
    | .error e => .error e

/-- The low `n` bytes of `w`, the lowest first. -/
def bytesOfNat : Nat → Nat → List Byte
  | 0, _ => []
  | n + 1, w => BitVec.ofNat 8 w :: bytesOfNat n (w / 256)

/-- The instruction the decoder reads from the bits `w` of a table row of `nbits` bits: the word is laid out
as one byte (`CMD2` is shorter than a byte, and every bit above it is 0); what does not fit in that byte
is a bit above bit 1 and is refused (DESIGN CHOICE, log entry 10). -/
def decodeTableWord (nbits w : Nat) : Option Instr :=
  if nbits ≤ 8 ∧ w < 256 then
    match decodeBytes (bytesOfNat 1 w) with
    | .ok (i, _) => some i
    | .error _ => none
  else none

/-- The command word of an operation, from the table of R76. -/
def encode : Instr → CmdCode
  | .encodeU64       => 0b00#2
  | .decodeU64       => 0b01#2
  | .encodeBigSigned => 0b10#2
  | .decodeBigSigned => 0b11#2

/-- The byte a program's `CMD` line stands for (R82): the 2-bit code with zeros above it. -/
def encodeByte (i : Instr) : Byte := (encode i).setWidth 8

end Sys2Proof
end

