-- ==== Sys2Proof/Machine/State.lean ====
section
/-! DEFINITION. The state of the block (R20 to R31), of the host agent beside it (R8, R82, R181), the
reasons a step can stop, and the state after reset (R38). Plain data throughout. -/

namespace Sys2Proof.Machine

/-- `PHASE` (R27, R171). `STATUS.BUSY` is a view of it: `BUSY = (PHASE = RUN)` (R25). -/
inductive Phase where
  | idle
  | run
  deriving DecidableEq, Repr

/-- `STATUS.ERR`: the outcome of the last ended command (R25, R190). -/
inductive ErrCode where
  | none
  | invalidEncoding
  | overflow
  | capacityExceeded
  deriving DecidableEq, Repr

/-- A host-visible register by the number R36 gives it; `other k` is number `7 + k`, which no register has (R58). -/
inductive HostReg where
  | cmd
  | status
  | val
  | bsign
  | bmag
  | len
  | buf (i : Nat)
  | other (k : Nat)
  deriving DecidableEq, Repr

/-- A host write of one whole register or one buffer cell (R36, R181); the write of `CMD` is an action of its own. -/
inductive HostWrite where
  | status (v : BitVec 4)
  | val (v : Word64)
  | bsign (v : Bool)
  | bmag (v : Nat)
  | len (v : Nat)
  | buf (i : Nat) (v : Byte)
  | other (k v : Nat)
  deriving DecidableEq, Repr

/-- One line of a host program (R82, R181), and `pass`: the host leaves this step to the codec. With `pass`
every interleaving of the two agents that the spec allows is some agenda (DESIGN CHOICE, log entry 5). -/
inductive HostAction where
  /-- `RST`: assert and release reset (R210). -/
  | rst
  /-- `WR` or `WRB`: write a register or a buffer cell. -/
  | write (w : HostWrite)
  /-- `CMD`: write the command register (R172). -/
  | cmd (c : CmdCode)
  /-- `RD` or `RDB`: read a register or a buffer cell. -/
  | read (r : HostReg)
  /-- `WAIT`: read `STATUS` repeatedly until `DONE = 1`. -/
  | wait
  /-- The host does nothing in this step. -/
  | pass
  deriving DecidableEq, Repr

/-- The cells of `BUF` that the host or an encoder has written since reset, each with its byte. -/
abbrev Memory := List Host.Cell

/-- Canonical form: cell indexes strictly rising. -/
abbrev Memory.wf (m : Memory) : Prop := m.Pairwise (fun a b => a.1 < b.1)

/-- What an unlisted cell holds: "no value" (R39). No entry of a list is equal to it, since an entry holds a byte. -/
def Memory.unlisted : Option Byte := none

/-- The whole machine: the block's registers (R20 to R31), its parameters (R26), and the host agent. -/
structure State where
  /-- The parameters of R7, fixed (R26); held here so that `step` takes them as an argument (DESIGN CHOICE, log entry 1). -/
  cfg    : Config
  /-- `PHASE` (R27); `STATUS.BUSY` (R25). -/
  phase  : Phase
  /-- `STATUS.DONE` (R25). -/
  done   : Bool
  /-- `STATUS.ERR` (R25). -/
  err    : ErrCode
  /-- `OPR`, the latched command code (R27). -/
  opr    : CmdCode
  /-- `VAL` (R20). -/
  val    : Word64
  /-- `BSIGN` (R21): true is 1, negative. -/
  bsign  : Bool
  /-- `BMAG` (R21). -/
  bmag   : Nat
  /-- `LEN` (R23). -/
  len    : Nat
  /-- `BUF` (R22): the cells written since reset. -/
  buf    : Memory
  /-- `IDX`, the group index (R27). -/
  idx    : Nat
  /-- `N`, the value `encodeU64` has still to encode (R28). -/
  n      : Word64
  /-- `A64`, the accumulator of `decodeU64` (R29). -/
  a64    : Word64
  /-- `W`, the working value of `encodeBigSigned` (R30). -/
  w      : Nat
  /-- `SIZE` (R30). -/
  size   : Nat
  /-- `NEG` (R30). -/
  neg    : Bool
  /-- `ACC`, the accumulator of `decodeBigSigned` (R31). -/
  acc    : Nat
  /-- MODEL'S OWN: which reset this is; the free values of R38 are applied to it (DESIGN CHOICE, log entries 2, 3). -/
  epoch  : Nat
  /-- MODEL'S OWN: how many unspecified values have been drawn (DESIGN CHOICE, log entry 4). -/
  draws  : Nat
  /-- The host agent: what it will still do, the next action first (R8, R82; DESIGN CHOICE, log entry 5). -/
  agenda : List HostAction
  /-- The host agent: what its reads returned, the newest first (R181; DESIGN CHOICE, log entry 5). -/
  seen   : List (HostReg × Nat)
  deriving DecidableEq, Repr

/-- What a line of a host program writes: a register number, for number 6 with the cell index (`6[i]`), and a
value (R82, 95_test_vectors.md section 7). -/
structure RegWrite where
  num   : Nat
  cell  : Option Nat
  value : Nat
  deriving DecidableEq, Repr

/-- Why the machine stops: nothing does. The block's own faults (R185) are next states with `STATUS.ERR` written, there
is no access fault (R188), and no behaviour of the block is stuck (93_implementation_defined.md). -/
inductive Fault where
  deriving DecidableEq, Repr

/-- Why the model gives no meaning. -/
inductive Refusal where
  /-- Raised by an arm of `exec` whose instruction has no meaning yet; no arm does so. Safe. -/
  | notModelled (mnemonic : String)
  deriving DecidableEq, Repr

/-- The block right after reset number `epoch`, built with the parameters `cfg`, with a host that has nothing to
do (R38, R211). A register whose reset value the spec leaves unspecified holds a free value (DESIGN CHOICE, log entry 2);
`IDX` stays within `BUFCAP` (R27). -/
def State.atReset (cfg : Config) (epoch : Nat) : State where
  cfg    := cfg
  phase  := .idle
  done   := false
  err    := .none
  opr    := 0
  val    := 0
  bsign  := false
  bmag   := 0
  len    := 0
  buf    := []
  idx    := cfg.bufcap.within (Config.resetIdx epoch)
  n      := Config.resetN epoch
  a64    := Config.resetA64 epoch
  w      := Config.resetW epoch
  size   := Config.resetSize epoch
  neg    := Config.resetNeg epoch
  acc    := Config.resetAcc epoch
  epoch  := epoch
  draws  := 0
  agenda := []
  seen   := []

/-- The block after reset with the default parameters of R7 (R38). -/
def State.reset : State := State.atReset Config.default 0

end Sys2Proof.Machine
end

