-- ==== Sys2Proof/Machine/Ops.lean ====
section
/-! DEFINITION. The named operations over the buffer and the registers: reading and writing one cell
(R53, R54), starting and finishing a command (R173, R175), taking a fault (R193), and reset (R210). -/

namespace Sys2Proof.Machine

/-! ### The buffer as data -/

/-- The byte listed for cell `i`, or what an unlisted cell holds. -/
def Memory.cell : Memory → Nat → Option Byte
  | [], _ => Memory.unlisted
  | (k, b) :: rest, i => if k = i then some b else Memory.cell rest i

/-- Cell `i` made to hold `v`, every other cell kept, the form canonical. -/
def Memory.put : Memory → Nat → Byte → Memory
  | [], i, v => [(i, v)]
  | (k, b) :: rest, i, v =>
    if i < k then (i, v) :: (k, b) :: rest
    else if i = k then (i, v) :: rest
    else (k, b) :: Memory.put rest i v

/-! ### Cells of `BUF` -/

/-- Cell `i` exists: `i < BUFCAP` (R22, R58). -/
def State.hasCell (s : State) (i : Nat) : Bool := s.cfg.bufcap.admits (i + 1)

/-- R53: the byte last written to cell `i`; the free byte of that index where nothing has been written since
reset (R39, U9), which is also what an index that no cell has reads as (DESIGN CHOICE, log entry 8). -/
def State.memRead (s : State) (i : Nat) : Byte :=
  match Memory.cell s.buf i with
  | some b => b
  | none => Config.unwrittenByte s.epoch i

/-- R54: cell `i` holds `v`, nothing else changes. A write touches its cell only (R57), so a write to an index
that no cell has (R58) changes nothing (DEDUCED, log entry 8). -/
def State.memWrite (s : State) (i : Nat) (v : Byte) : State :=
  { s with buf := if s.hasCell i then Memory.put s.buf i v else s.buf }

/-! ### Start, finish, fault -/

/-- R173, the common part of every start: latch the code, `PHASE <- RUN`, `DONE <- 0`, `ERR <- 0`. This is also
the return from a fault: there is no return operation, "The error state ends when the next command starts" (R195). -/
def State.startCommon (s : State) (c : CmdCode) : State :=
  { s with opr := c, phase := .run, done := false, err := .none }

/-- R175: `PHASE <- IDLE`, `DONE <- 1`; `ERR` stays. -/
def State.finish (s : State) : State := { s with phase := .idle, done := true }

/-- R193, taking a fault: `ERR <- code(F)`, `DONE <- 1`, `PHASE <- IDLE`, "and nothing else". -/
def State.raise (s : State) (f : ErrCode) : State := { s with err := f, done := true, phase := .idle }

/-- The end of an encoder's step (R56, R92, R118): append the byte `b` at `IDX`; on the last one write `LEN` and
finish, else go on to the next index. -/
def State.append (s : State) (b : Byte) (last : Bool) : State :=
  if last then State.finish { s.memWrite s.idx b with len := s.idx + 1 }
  else { s.memWrite s.idx b with idx := s.idx + 1 }

/-- R210: all state takes the reset values of R38, the unspecified ones drawn anew. The parameters (R26) and the
host agent are not the block's state and are kept (DEDUCED, log entry 13). -/
def State.assertReset (s : State) : State :=
  { State.atReset s.cfg (s.epoch + 1) with agenda := s.agenda, seen := s.seen, draws := s.draws }

end Sys2Proof.Machine
end

