-- ==== Sys2Proof/Machine/Operands.lean ====
section
/-! DEFINITION. The operand forms: the fields of a group byte (R70), the signed integer `BIG` (R21), and the
host-visible registers by number with what a read of each returns (R36). -/

namespace Sys2Proof.Machine

/-! ### The group byte `GROUP8` (R70) -/

/-- Field `p`, bits 6:0: the payload. -/
def Group.payload (b : Byte) : Payload := b.extractLsb' 0 7

/-- Field `c`, bit 7: the continuation bit. -/
def Group.cont (b : Byte) : Bool := b.getLsbD 7

/-- Field `s`, bit 6: in the last group of a signed sequence, the sign bit. -/
def Group.sign (b : Byte) : Bool := b.getLsbD 6

/-- The byte with payload `p` whose continuation bit is set when `more` (R92, R118: `zext_8(p)`, or that `| 0x80`). -/
def Group.byte (p : Payload) (more : Bool) : Byte :=
  if more then p.setWidth 8 ||| 0x80#8 else p.setWidth 8

/-! ### The signed integer `BIG` (R21) -/

/-- `BSIGN & (BMAG != 0)`: 1 exactly when `value(BIG) < 0` (R117). -/
def State.bigNeg (s : State) : Bool := s.bsign && s.bmag != 0

/-- `value(BIG)` (R21). -/
def State.big (s : State) : Int := if s.bsign then -(s.bmag : Int) else s.bmag

/-- `bitlen(m) <= MAGBITS`: the magnitude fits `BMAG` (R141). -/
def State.magFits (s : State) (m : Nat) : Bool := s.cfg.magbits.admits (bitlen m)

/-! ### Registers by number (R36, R58) -/

/-- The number of a host-visible register. -/
def HostReg.number : HostReg → Nat
  | .cmd => 0
  | .status => 1
  | .val => 2
  | .bsign => 3
  | .bmag => 4
  | .len => 5
  | .buf _ => 6
  | .other k => 7 + k

/-- The register a number names; number 6 takes the cell index with it. -/
def HostReg.ofNumber (num i : Nat) : HostReg :=
  match num with
  | 0 => .cmd
  | 1 => .status
  | 2 => .val
  | 3 => .bsign
  | 4 => .bmag
  | 5 => .len
  | 6 => .buf i
  | k + 7 => .other k

/-- The register a write goes to. -/
def HostWrite.reg : HostWrite → HostReg
  | .status _ => .status
  | .val _ => .val
  | .bsign _ => .bsign
  | .bmag _ => .bmag
  | .len _ => .len
  | .buf i _ => .buf i
  | .other k _ => .other k

/-- The value a write carries, as a number. -/
def HostWrite.value : HostWrite → Nat
  | .status v => v.toNat
  | .val v => v.toNat
  | .bsign v => v.toNat
  | .bmag v => v
  | .len v => v
  | .buf _ v => v.toNat
  | .other _ v => v

/-- The cell index that goes with a register number: number 6 has one, no other number has (R36). -/
def HostReg.cellIndex : HostReg → Option Nat
  | .cmd => none
  | .status => none
  | .val => none
  | .bsign => none
  | .bmag => none
  | .len => none
  | .buf i => some i
  | .other _ => none

/-- What a program's line writes (R82); `RST`, `RD`, `RDB` and `WAIT` write no register. -/
def HostAction.encoding : HostAction → Option RegWrite
  | .write w => some ⟨w.reg.number, w.reg.cellIndex, w.value⟩
  | .cmd c => some ⟨HostReg.cmd.number, HostReg.cmd.cellIndex, c.toNat⟩
  | .rst => none
  | .read _ => none
  | .wait => none
  | .pass => none

/-- R82: "The "encoding" of a program is the sequence of register numbers and values these lines write". -/
def programEncoding (program : List HostAction) : List RegWrite := program.filterMap HostAction.encoding

end Sys2Proof.Machine
end

