-- ==== Sys2Proof/Machine/Flags.lean ====
section
/-! DEFINITION. `STATUS` and the tests of the four algorithms. The block has no condition codes (R33): the only
status a command leaves is `STATUS` (R25), and a termination test lives inside one step (R32, R179). -/

namespace Sys2Proof.Machine

/-! ### `STATUS` (R25) -/

/-- `STATUS.BUSY`, bit 0: equals (`PHASE = RUN`). -/
def State.busy (s : State) : Bool := s.phase == .run

/-- The codes of R190. -/
def ErrCode.code : ErrCode → BitVec 2
  | .none => 0
  | .invalidEncoding => 1
  | .overflow => 2
  | .capacityExceeded => 3

/-- The 4-bit register: `ERR` in bits 3:2, `DONE` in bit 1, `BUSY` in bit 0. -/
def State.status (s : State) : BitVec 4 :=
  s.err.code ++ BitVec.ofBool s.done ++ BitVec.ofBool s.busy

/-! ### Termination tests (R179) -/

/-- R92: "the remaining value after the shift is exactly 0". -/
def lastU64 (q : Word64) : Bool := q == 0

/-- R121: test (a) for a non-negative value, test (b) for a negative one, on the filled value `w1` and the
candidate byte `r`. -/
def lastBig (neg : Bool) (size w1 r : Nat) : Bool :=
  (!neg && w1 == 0 && !getbit r 6) || (neg && allOnes w1 size && getbit r 6)

/-! ### Fault tests of `decodeU64` (R102) -/

/-- R102 line 2, R105 item 2: under policy `fault`, an eleventh group. -/
def tooManyGroups (p : OvfPolicy) (i : Nat) : Bool := p == .fault && 10 ≤ i

/-- R102 line 4, R105 item 4: under policy `fault`, group 9 with any of payload bits 6 to 1 set. -/
def tenthGroupTooWide (p : OvfPolicy) (i : Nat) (pay : Payload) : Bool :=
  p == .fault && i == 9 && pay.extractLsb' 1 6 != 0

end Sys2Proof.Machine
end

