-- ==== Sys2Proof/Machine/BigSigned.lean ====
section
/-! DEFINITION. The signed arbitrary-precision pair: `encodeBigSigned` (42_bigsigned_encoder.md) and
`decodeBigSigned` (43_bigsigned_decoder.md). As for the unsigned pair, a meaning is the start step in
`PHASE = IDLE` and the iteration step in `PHASE = RUN` (R170, R172). -/

namespace Sys2Proof.Machine

/-- R117 with R173: `SIZE`, `NEG`, `W` and `IDX` are written from `BIG`, which is not. -/
def startEncodeBigSigned (s : State) : State :=
  { s.startCommon (encode .encodeBigSigned) with
    size := bitlen s.bmag
    neg  := s.bigNeg
    w    := if s.bigNeg then twosComplement s.bmag else s.bmag
    idx  := 0 }

/-- R118: divide, sign-fill the quotient, test, append, in the source's order. -/
def iterEncodeBigSigned (s : State) : Host.Outcome State Fault Refusal :=
  let q := (divMod128 s.w).1
  let r := (divMod128 s.w).2
  let w1 := if s.neg then signFill7 q s.size else q
  let last := lastBig s.neg s.size w1 r
  let b := Group.byte (BitVec.ofNat 7 r) (!last)
  .next (State.append { s with w := w1 } b last)

/-- `encodeBigSigned` (R115): the next step of the codec for it. -/
def execEncodeBigSigned (s : State) : Host.Outcome State Fault Refusal :=
  match s.phase with
  | .idle => .next (startEncodeBigSigned s)
  | .run => iterEncodeBigSigned s

/-- R136 with R173: `ACC <- 0`, `IDX <- 0`. -/
def startDecodeBigSigned (s : State) : State :=
  { s.startCommon (encode .decodeBigSigned) with acc := 0, idx := 0 }

/-- R139, R140: the sign and magnitude of the result, from the accumulator `a` after the terminating group `b`
at index `i`. -/
def bigResult (a i : Nat) (b : Byte) : Bool × Nat :=
  if Group.sign b then (true, twosComplement (signPad8 a (7 * (i + 1)))) else (false, a)

/-- R137: one iteration. A step that raises does only what R193 says, so `ACC` keeps its value then (DEDUCED, log entry 9). -/
def iterDecodeBigSigned (s : State) : Host.Outcome State Fault Refusal :=
  let i := s.idx
  if s.len ≤ i then .next (s.raise .invalidEncoding)
  else
    let b := s.memRead i
    let a := s.acc ||| (Group.payload b).toNat <<< (7 * i)
    if Group.cont b then .next { s with acc := a, idx := i + 1 }
    else
      let res := bigResult a i b
      if s.magFits res.2 then .next (State.finish { s with acc := a, bsign := res.1, bmag := res.2 })
      else .next (s.raise .capacityExceeded)

/-- `decodeBigSigned` (R135): the next step of the codec for it. -/
def execDecodeBigSigned (s : State) : Host.Outcome State Fault Refusal :=
  match s.phase with
  | .idle => .next (startDecodeBigSigned s)
  | .run => iterDecodeBigSigned s

end Sys2Proof.Machine
end

