-- ==== Sys2Proof/Machine/Unsigned64.lean ====
section
/-! DEFINITION. The unsigned-64 pair: `encodeU64` (40_unsigned64_encoder.md) and `decodeU64`
(41_unsigned64_decoder.md). A command's meaning is the step the codec takes for it: its start step in
`PHASE = IDLE` (R172), its iteration step in `PHASE = RUN` (R170; DESIGN CHOICE, log entry 11). -/

namespace Sys2Proof.Machine

/-- R91 with R173: `N <- VAL`, `IDX <- 0`. -/
def startEncodeU64 (s : State) : State :=
  { s.startCommon (encode .encodeU64) with n := s.val, idx := 0 }

/-- R92: one iteration. -/
def iterEncodeU64 (s : State) : Host.Outcome State Fault Refusal :=
  let q := shr64 s.n
  let last := lastU64 q
  let b := Group.byte (s.n.extractLsb' 0 7) (!last)
  .next (State.append { s with n := q } b last)

/-- `encodeU64` (R90): the next step of the codec for it. -/
def execEncodeU64 (s : State) : Host.Outcome State Fault Refusal :=
  match s.phase with
  | .idle => .next (startEncodeU64 s)
  | .run => iterEncodeU64 s

/-- R101 with R173: `A64 <- 0`, `IDX <- 0`. -/
def startDecodeU64 (s : State) : State :=
  { s.startCommon (encode .decodeU64) with a64 := 0, idx := 0 }

/-- R102: one iteration, its checks in the order written; the first that fires ends the step (R192). -/
def iterDecodeU64 (s : State) : Host.Outcome State Fault Refusal :=
  let i := s.idx
  if s.len ≤ i then .next (s.raise .invalidEncoding)
  else if tooManyGroups s.cfg.policy i then .next (s.raise .overflow)
  else
    let b := s.memRead i
    let p := Group.payload b
    if tenthGroupTooWide s.cfg.policy i p then .next (s.raise .overflow)
    else
      let a := s.a64 ||| shl64 (p.setWidth 64) (7 * i)
      .next (if Group.cont b then { s with a64 := a, idx := i + 1 }
             else State.finish { s with a64 := a, val := a })

/-- `decodeU64` (R100): the next step of the codec for it. -/
def execDecodeU64 (s : State) : Host.Outcome State Fault Refusal :=
  match s.phase with
  | .idle => .next (startDecodeU64 s)
  | .run => iterDecodeU64 s

end Sys2Proof.Machine
end

