-- ==== Sys2Proof/Machine/Dispatch.lean ====
section
/-! DEFINITION. The meaning of each instruction: the step the codec takes for it (R170, R174). -/

namespace Sys2Proof.Machine

def exec (i : Instr) (s : State) : Host.Outcome State Fault Refusal :=
  match i with
  | .encodeU64 => Sys2Proof.Machine.execEncodeU64 s
  | .decodeU64 => Sys2Proof.Machine.execDecodeU64 s
  | .encodeBigSigned => Sys2Proof.Machine.execEncodeBigSigned s
  | .decodeBigSigned => Sys2Proof.Machine.execDecodeBigSigned s

end Sys2Proof.Machine
end

