-- ==== Sys2Proof/Machine/HostPort.lean ====
section
/-! DEFINITION. The host's accesses to the registers (R36, R37, R58, R181), but for the write of `CMD`, which
starts a command (Machine/Sequencer.lean). -/

namespace Sys2Proof.Machine

/-- What a read returns while `BUSY = 0` (R36): `CMD` and an unknown number read 0 (R24, R58). -/
def idleRead (s : State) : HostReg → Nat
  | .cmd => 0
  | .status => s.status.toNat
  | .val => s.val.toNat
  | .bsign => s.bsign.toNat
  | .bmag => s.bmag
  | .len => s.len
  | .buf i => (s.memRead i).toNat
  | .other _ => 0

/-- What a read returns while `BUSY = 1` (R37): `STATUS` is true, `CMD` and an unknown number read 0, every other
register a fresh unspecified value of the register's width (U8). -/
def busyRead (s : State) : HostReg → Nat
  | .cmd => 0
  | .status => s.status.toNat
  | .val => (Config.busyVal s.draws).toNat
  | .bsign => (Config.busySign s.draws).toNat
  | .bmag => s.cfg.magbits.lowBits (Config.busyMag s.draws)
  | .len => Config.busyLen s.draws
  | .buf _ => (Config.busyByte s.draws).toNat
  | .other _ => 0

/-- A host read: what it returns goes to the host, and no register changes (R57). A read while `BUSY = 1` uses up
one draw. -/
def hostRead (r : HostReg) (s : State) : Host.Outcome State Fault Refusal :=
  .next (if s.busy then { s with seen := (r, busyRead s r) :: s.seen, draws := s.draws + 1 }
         else { s with seen := (r, idleRead s r) :: s.seen })

/-- A write while `BUSY = 0` (R36): `STATUS` and an unknown number ignore it; `LEN` takes values `0..BUFCAP`
only (R23); a value that does not fit `BMAG` leaves an unspecified one there (DESIGN CHOICE, log entry 7). -/
def idleWrite (s : State) : HostWrite → State
  | .status _ => s
  | .val v => { s with val := v }
  | .bsign v => { s with bsign := v }
  | .bmag v =>
    if s.magFits v then { s with bmag := v }
    else { s with bmag := s.cfg.magbits.lowBits (Config.overwideMag s.draws), draws := s.draws + 1 }
  | .len v => if s.cfg.bufcap.admits v then { s with len := v } else s
  | .buf i v => s.memWrite i v
  | .other _ _ => s

/-- A host write of a register or cell other than `CMD`; while `BUSY = 1` it is ignored (R37). -/
def hostWrite (w : HostWrite) (s : State) : Host.Outcome State Fault Refusal :=
  .next (if s.busy then s else idleWrite s w)

end Sys2Proof.Machine
end

