-- ==== Sys2Proof/Machine/Sequencer.lean ====
section
/-! DEFINITION. Who moves, and how: the codec's turn (R170, R174), the host's actions (R172, R181), and one
step of the two agents together. -/

namespace Sys2Proof.Machine

/-- The codec's turn: in `RUN` the iteration step that `OPR` selects (R174); in `IDLE` with no `CMD` write it
"takes no step" (R170). -/
def codecTurn (s : State) : Host.Outcome State Fault Refusal :=
  match s.phase with
  | .idle => .next s
  | .run => exec (decodeCmd s.opr) s

/-- R172: a write of `CMD` in `IDLE` is the start step of the command it names; in `RUN` it is ignored. -/
def writeCmd (c : CmdCode) (s : State) : Host.Outcome State Fault Refusal :=
  match s.phase with
  | .idle => exec (decodeCmd c) s
  | .run => .next s

/-- One host action, in a state from whose agenda it has been taken. `wait` goes back to the agenda, and the codec
has its turn, while `DONE = 0` (R82, R180). -/
def hostTurn (a : HostAction) (s : State) : Host.Outcome State Fault Refusal :=
  match a with
  | .rst => .next s.assertReset
  | .write w => hostWrite w s
  | .cmd c => writeCmd c s
  | .read r => hostRead r s
  | .wait => if s.done then .next s else codecTurn { s with agenda := .wait :: s.agenda }
  | .pass => codecTurn s

/-- One step of the machine: the host's next action, or the codec's turn when the host has nothing to do. -/
def turn (s : State) : Host.Outcome State Fault Refusal :=
  match s.agenda with
  | [] => codecTurn s
  | a :: rest => hostTurn a { s with agenda := rest }

end Sys2Proof.Machine
end

