-- ==== Sys2Proof/Machine/Step.lean ====
section
/-! DEFINITION. The step function, and how an instruction comes to be the next one that runs. -/

namespace Sys2Proof.Machine

/-- One step of the machine (R170, R181). -/
def step (s : State) : Host.Outcome State Fault Refusal := turn s

/-- `s` with the command word `w` about to be written to `CMD`: the block fetches no instructions (R63), a
command starts when the host writes `CMD` in `PHASE = IDLE` (R172), so the write is put first on the host's
agenda and a running command is taken off (DESIGN CHOICE, log entry 6). A `w` that is no command word cannot be
written to the 2-bit register and changes nothing. -/
def State.withFetchWord (s : State) (nbits w : Nat) : State :=
  match decodeTableWord nbits w with
  | some i => { s with phase := .idle, agenda := .cmd (encode i) :: s.agenda }
  | none => s

end Sys2Proof.Machine
end

