-- ==== Sys2Proof/Safety.lean ====
section
/-! DEFINITION. The terms claims are made in: runs of several steps, the value of a byte sequence (R72, R73), the
canonical encodings (R74, R75, R94, R124), and the invariant of the block. -/

namespace Sys2Proof.Machine

/-! ### Runs -/

/-- `k` steps, stopping at the first fault or refusal. -/
def steps : Nat → State → Host.Outcome State Fault Refusal
  | 0, s => .next s
  | k + 1, s =>
    match step s with
    | .next t => steps k t
    | .fault f => .fault f
    | .refused r => .refused r

/-- The host has just decided to write the command `i`, and nothing after it. -/
def State.issue (s : State) (i : Instr) : State := { s with agenda := [.cmd (encode i)] }

/-! ### Byte sequences as values -/

/-- `sum over i < k of f(i)[6:0] * 2^(7i)`: the payloads of the first `k` groups, low group first (R51, R72). -/
def groupSum (f : Nat → Byte) : Nat → Nat
  | 0 => 0
  | k + 1 => groupSum f k + (Group.payload (f k)).toNat * 2 ^ (7 * k)

/-- The number of leading bytes among `f(0) .. f(len-1)` whose continuation bit is set: `c` of R107. -/
def leadingConts (f : Nat → Byte) : Nat → Nat
  | 0 => 0
  | k + 1 => if leadingConts f k = k ∧ Group.cont (f k) = true then k + 1 else leadingConts f k

/-- Byte `i` of a list, 0 past its end. -/
def byteAt (l : List Byte) (i : Nat) : Byte := l.getD i 0

/-- The unsigned value of a complete encoding (R72). -/
def unsignedValue (l : List Byte) : Nat := groupSum (byteAt l) l.length

/-- The signed value of a complete encoding (R73): a two's complement number of width `7k`. -/
def signedValue (l : List Byte) : Int :=
  (unsignedValue l : Int) - if Group.sign (byteAt l (l.length - 1)) then 2 ^ (7 * l.length) else 0

/-! ### Canonical encodings -/

/-- Group `i` of the `k`-group encoding of `n`: `asr(n, 7i) mod 128`, with `0x80` on every group but the last
(R94, R124). Division of integers by a power of two rounds toward minus infinity, so it is `asr`. -/
def groupOf (n : Int) (k i : Nat) : Byte :=
  BitVec.ofNat 8 ((n / 2 ^ (7 * i) % 128).toNat + if i + 1 < k then 128 else 0)

/-- A buffer with groups `0 .. j-1` of the `k`-group encoding of `n` written, in that order (R56). -/
def putGroups (m : Memory) (n : Int) (k : Nat) : Nat → Memory
  | 0 => m
  | j + 1 => Memory.put (putGroups m n k j) j (groupOf n k j)

/-- The length of the unsigned encoding (R80). -/
def unsignedLen (v : Nat) : Nat := max 1 ((bitlen v + 6) / 7)

/-- `-2^(7k-1) <= n < 2^(7k-1)` (R75, R124). -/
def fitsGroups (n : Int) (k : Nat) : Prop := -(2 : Int) ^ (7 * k - 1) ≤ n ∧ n < (2 : Int) ^ (7 * k - 1)

/-- `k` is the least integer `>= 1` for which `n` fits `k` groups (R75, R124). -/
def leastGroups (n : Int) (k : Nat) : Prop :=
  1 ≤ k ∧ fitsGroups n k ∧ ∀ j, 1 ≤ j → j < k → ¬ fitsGroups n j

/-! ### What no host can see -/

/-- The state with the working registers (R27 to R31, `IDX` among them) blotted out. -/
def State.withoutWork (s : State) : State :=
  { s with idx := 0, n := 0, a64 := 0, w := 0, size := 0, neg := false, acc := 0 }

/-- The state with another host beside the same block: another agenda, other things seen, other draws. -/
def State.withHost (s : State) (agenda : List HostAction) (seen : List (HostReg × Nat)) (draws : Nat) : State :=
  { s with agenda := agenda, seen := seen, draws := draws }

/-- An outcome with its next state changed. -/
def mapNext (f : State → State) : Host.Outcome State Fault Refusal → Host.Outcome State Fault Refusal
  | .next s => .next (f s)
  | .fault e => .fault e
  | .refused r => .refused r

/-! ### Bounds -/

/-- R180: the number of iteration steps within which the running command ends. -/
def commandBound (s : State) : Nat :=
  match decodeCmd s.opr with
  | .encodeU64 => 10
  | .decodeU64 => s.len + 1
  | .encodeBigSigned => s.size / 7 + 1
  | .decodeBigSigned => s.len + 1

/-! ### The invariant -/

/-- `STATUS` is consistent: `BUSY` and `DONE` are never both 1, and `ERR` is non-zero only when `DONE = 1` (R25). -/
def State.statusOk (s : State) : Prop :=
  (s.phase = .run → s.done = false) ∧ (s.err ≠ .none → s.done = true)

/-- `encodeU64` under way: `N = VAL >> 7i`, and at most ten groups (R94). -/
def encodingU64 (s : State) : Prop := s.n.toNat = s.val.toNat / 2 ^ (7 * s.idx) ∧ s.idx ≤ 9

/-- A decoder under way: `IDX` has not passed `LEN`, and every group so far had its continuation bit set. -/
def readingGroups (s : State) : Prop := s.idx ≤ s.len ∧ ∀ j < s.idx, Group.cont (s.memRead j) = true

/-- `decodeU64` under way: `A64` holds the payloads so far, less what lies at bit 64 and above (R29). -/
def decodingU64 (s : State) : Prop := readingGroups s ∧ s.a64 = BitVec.ofNat 64 (groupSum s.memRead s.idx)

/-- `encodeBigSigned` under way: the invariant of R124. -/
def encodingBig (s : State) : Prop :=
  s.size = bitlen s.bmag ∧ s.neg = s.bigNeg ∧ s.idx ≤ s.size / 7 ∧
  (s.neg = false → s.w = s.bmag / 2 ^ (7 * s.idx)) ∧
  (s.w : Int) % 2 ^ max s.size 7 = s.big / 2 ^ (7 * s.idx) % 2 ^ max s.size 7

/-- `decodeBigSigned` under way: `ACC` holds the payloads so far (R31). -/
def decodingBig (s : State) : Prop := readingGroups s ∧ s.acc = groupSum s.memRead s.idx

/-- What holds of the working registers while a command runs. -/
def commandOk (s : State) : Prop :=
  match decodeCmd s.opr with
  | .encodeU64 => encodingU64 s
  | .decodeU64 => decodingU64 s
  | .encodeBigSigned => encodingBig s
  | .decodeBigSigned => decodingBig s

/-- The invariant of the block: it holds at reset and every step keeps it. -/
structure Inv (s : State) : Prop where
  /-- The parameters meet the constraints of R7. -/
  cfgOk    : s.cfg.wellFormed = true
  /-- The buffer is in canonical form. -/
  bufWf    : Memory.wf s.buf
  /-- Only cells `0..BUFCAP-1` exist (R22). -/
  bufCells : ∀ c ∈ s.buf, s.hasCell c.1 = true
  /-- `0 <= LEN <= BUFCAP` (R23). -/
  lenOk    : s.cfg.bufcap.admits s.len = true
  /-- `BMAG < 2^MAGBITS` (R21). -/
  bmagOk   : s.magFits s.bmag = true
  /-- `IDX` "never exceeds `BUFCAP`" (R27). -/
  idxOk    : s.cfg.bufcap.admits s.idx = true
  /-- R25. -/
  statusOk : s.statusOk
  /-- While a command runs, its working registers hold what its rules say. -/
  running  : s.phase = .run → commandOk s

end Sys2Proof.Machine
end

