-- ==== Sys2Proof/Certificates/Slice0/Obligations.lean ====
section
/-! DEFINITION. The statements for the provers. Each docstring says which rule of the spec it formalises. -/

open Sys2Proof Sys2Proof.Machine

/-! ### Encodings -/

/-- R76: the code of each operation, its two fields, and that codes and operations name each other. -/
def Obligations.CommandTable : Prop :=
  (decodeCmd 0b00#2 = .encodeU64 ∧ decodeCmd 0b01#2 = .decodeU64 ∧
   decodeCmd 0b10#2 = .encodeBigSigned ∧ decodeCmd 0b11#2 = .decodeBigSigned) ∧
  (∀ i, CmdCode.kind (encode i) = decide (i = .encodeBigSigned ∨ i = .decodeBigSigned)) ∧
  (∀ i, CmdCode.dir (encode i) = decide (i = .decodeU64 ∨ i = .decodeBigSigned)) ∧
  (∀ i, i.wellFormed = true → decodeCmd (encode i) = i) ∧
  (∀ c, encode (decodeCmd c) = c)

/-- R76, R77: a number is a command word exactly when it has no bit above bit 1, and then it names the operation of
its two bits; a byte with a higher bit set is refused by name, and what follows a command byte is left over. -/
def Obligations.CommandWordsAreTwoBits : Prop :=
  (∀ w, decodeTableWord 8 w = if w < 4 then some (decodeCmd (BitVec.ofNat 2 w)) else none) ∧
  (∀ b : Byte, 4 ≤ b.toNat → decodeByte b = .error .widerThanCmd2) ∧
  (∀ i rest, decodeBytes (encodeByte i :: rest) = .ok (i, rest))

/-- R36, R58: the table of register numbers; numbers 0 to 6 name the seven host-visible registers, 6 with the cell
index, and every other number names none of them. -/
def Obligations.RegisterNumbersNameRegisters : Prop :=
  (HostReg.cmd.number = 0 ∧ HostReg.status.number = 1 ∧ HostReg.val.number = 2 ∧ HostReg.bsign.number = 3 ∧
    HostReg.bmag.number = 4 ∧ HostReg.len.number = 5 ∧ ∀ i, (HostReg.buf i).number = 6) ∧
  (∀ i, HostReg.ofNumber 0 i = .cmd ∧ HostReg.ofNumber 1 i = .status ∧ HostReg.ofNumber 2 i = .val ∧
    HostReg.ofNumber 3 i = .bsign ∧ HostReg.ofNumber 4 i = .bmag ∧ HostReg.ofNumber 5 i = .len ∧
    HostReg.ofNumber 6 i = .buf i) ∧
  (∀ r i, (∀ j, r = .buf j → j = i) → HostReg.ofNumber r.number i = r) ∧
  (∀ num i, (HostReg.ofNumber num i).number = num) ∧
  (∀ num i, 6 < num ↔ ∃ k, HostReg.ofNumber num i = .other k)

/-- R82, 95_test_vectors.md section 7: what each line of a host program writes, as `number <- value` and for a buffer
cell `6[i] <- byte`; the other lines write nothing; the encoding of a program is that of its lines in order; and two
lines that write the same are the same line. -/
def Obligations.ProgramEncoding : Prop :=
  (∀ c, HostAction.encoding (.cmd c) = some ⟨0, none, c.toNat⟩) ∧
  (∀ v, HostAction.encoding (.write (.status v)) = some ⟨1, none, v.toNat⟩) ∧
  (∀ v, HostAction.encoding (.write (.val v)) = some ⟨2, none, v.toNat⟩) ∧
  (∀ v, HostAction.encoding (.write (.bsign v)) = some ⟨3, none, v.toNat⟩) ∧
  (∀ v, HostAction.encoding (.write (.bmag v)) = some ⟨4, none, v⟩) ∧
  (∀ v, HostAction.encoding (.write (.len v)) = some ⟨5, none, v⟩) ∧
  (∀ i v, HostAction.encoding (.write (.buf i v)) = some ⟨6, some i, v.toNat⟩) ∧
  (∀ k v, HostAction.encoding (.write (.other k v)) = some ⟨7 + k, none, v⟩) ∧
  (∀ a, HostAction.encoding a = none ↔ a = .rst ∨ a = .wait ∨ a = .pass ∨ ∃ r, a = .read r) ∧
  (∀ a b, HostAction.encoding a = HostAction.encoding b → HostAction.encoding a ≠ none → a = b) ∧
  programEncoding [] = [] ∧
  (∀ a rest, programEncoding (a :: rest) = (HostAction.encoding a).toList ++ programEncoding rest)

/-! ### A step runs the decoded instruction -/

/-- R172: a write of `CMD` in `IDLE` is the start step of the instruction the word decodes to; the step takes the
action from the host's agenda and runs the instruction. -/
def Obligations.CmdWriteRunsDecodedInstr : Prop :=
  ∀ (s : State) (c : CmdCode) (rest : List HostAction), s.phase = .idle → s.agenda = .cmd c :: rest →
    step s = exec (decodeCmd c) { s with agenda := rest }

/-- R174: in `RUN` the codec's step is the one `OPR` selects, when the host has nothing to do, passes, or waits
with `DONE = 0`. -/
def Obligations.RunningStepRunsLatchedInstr : Prop :=
  ∀ s : State, s.phase = .run →
    (s.agenda = [] → step s = exec (decodeCmd s.opr) s) ∧
    (∀ rest, s.agenda = .pass :: rest → step s = exec (decodeCmd s.opr) { s with agenda := rest }) ∧
    (∀ rest, s.agenda = .wait :: rest → s.done = false → step s = exec (decodeCmd s.opr) s)

/-- The model's way to make a word the next instruction (log entry 6): the step after `withFetchWord` is the start
step of the instruction the word names. -/
def Obligations.FetchWordRunsInstr : Prop :=
  ∀ (i : Instr) (s : State), step (s.withFetchWord 8 (encode i).toNat) = exec i { s with phase := .idle }

/-- R170, R82: in `IDLE` with no `CMD` write the codec takes no step; a `WAIT` ends when `DONE = 1`. -/
def Obligations.IdleCodecTakesNoStep : Prop :=
  ∀ s : State,
    (s.phase = .idle → s.agenda = [] → step s = .next s) ∧
    (∀ rest, s.phase = .idle → s.agenda = .pass :: rest → step s = .next { s with agenda := rest }) ∧
    (∀ rest, s.phase = .idle → s.agenda = .wait :: rest → s.done = false → step s = .next s) ∧
    (∀ rest, s.agenda = .wait :: rest → s.done = true → step s = .next { s with agenda := rest })

/-- R82, R181: the lines of a host program are performed in order: a step performs the first action that is left and
takes it off, but for a `WAIT` with `DONE = 0`, which stays first; no step adds an action. -/
def Obligations.HostActsInOrder : Prop :=
  ∀ s t : State, step s = .next t →
    (s.agenda = [] → t.agenda = []) ∧
    (∀ a rest, s.agenda = a :: rest → t.agenda = if a = .wait ∧ s.done = false then s.agenda else rest)

/-! ### Start steps -/

/-- R173: every command's start latches its code, sets `RUN`, clears `DONE` and `ERR`, and leaves every
operand, the buffer, the parameters and the host as they were. -/
def Obligations.StartStepCommonWrites : Prop :=
  ∀ (i : Instr) (s : State), s.phase = .idle →
    ∃ t, exec i s = .next t ∧ t.opr = encode i ∧ t.phase = .run ∧ t.done = false ∧ t.err = .none ∧ t.idx = 0 ∧
      t.cfg = s.cfg ∧ t.val = s.val ∧ t.bsign = s.bsign ∧ t.bmag = s.bmag ∧ t.len = s.len ∧ t.buf = s.buf ∧
      t.epoch = s.epoch ∧ t.draws = s.draws ∧ t.agenda = s.agenda ∧ t.seen = s.seen

/-- R91: `N <- VAL`, `IDX <- 0`, and nothing besides the common writes. -/
def Obligations.EncodeU64Start : Prop :=
  ∀ s : State, s.phase = .idle →
    exec .encodeU64 s = .next { s with
      opr := 0b00#2, phase := .run, done := false, err := .none, n := s.val, idx := 0 }

/-- R101: `A64 <- 0`, `IDX <- 0`, and nothing besides the common writes. -/
def Obligations.DecodeU64Start : Prop :=
  ∀ s : State, s.phase = .idle →
    exec .decodeU64 s = .next { s with
      opr := 0b01#2, phase := .run, done := false, err := .none, a64 := 0, idx := 0 }

/-- R117: `SIZE`, `NEG` and `W` from `BIG`, negative zero read as zero, `IDX <- 0`. -/
def Obligations.EncodeBigSignedStart : Prop :=
  ∀ s : State, s.phase = .idle →
    exec .encodeBigSigned s = .next { s with
      opr := 0b10#2, phase := .run, done := false, err := .none,
      size := bitlen s.bmag, neg := decide (s.big < 0),
      w := if s.big < 0 then 2 ^ (8 * bytelen s.bmag) - s.bmag else s.bmag, idx := 0 }

/-- R136: `ACC <- 0`, `IDX <- 0`, and nothing besides the common writes. -/
def Obligations.DecodeBigSignedStart : Prop :=
  ∀ s : State, s.phase = .idle →
    exec .decodeBigSigned s = .next { s with
      opr := 0b11#2, phase := .run, done := false, err := .none, acc := 0, idx := 0 }

/-! ### Iteration steps -/

/-- R92: one group of `encodeU64`, in arithmetic: the byte is `N mod 128`, with `0x80` unless `N div 128 = 0`. -/
def Obligations.EncodeU64Iteration : Prop :=
  ∀ s : State, s.phase = .run → s.hasCell s.idx = true →
    (s.n.toNat / 128 = 0 →
      exec .encodeU64 s = .next { s with
        buf := Memory.put s.buf s.idx (BitVec.ofNat 8 (s.n.toNat % 128)), n := 0,
        len := s.idx + 1, phase := .idle, done := true }) ∧
    (s.n.toNat / 128 ≠ 0 →
      exec .encodeU64 s = .next { s with
        buf := Memory.put s.buf s.idx (BitVec.ofNat 8 (s.n.toNat % 128 + 128)),
        n := BitVec.ofNat 64 (s.n.toNat / 128), idx := s.idx + 1 })

/-- R102: one group of `decodeU64`, its checks in the order written, in arithmetic: the payload is the byte
modulo 128, the continuation bit its top bit, and payload bits 6:1 are zero when the payload is below 2. -/
def Obligations.DecodeU64Iteration : Prop :=
  ∀ s : State, s.phase = .run →
    (s.len ≤ s.idx →
      exec .decodeU64 s = .next { s with err := .invalidEncoding, done := true, phase := .idle }) ∧
    (s.idx < s.len → s.cfg.policy = .fault → 10 ≤ s.idx →
      exec .decodeU64 s = .next { s with err := .overflow, done := true, phase := .idle }) ∧
    (s.idx < s.len → s.cfg.policy = .fault → s.idx = 9 →
      2 ≤ (s.memRead s.idx).toNat % 128 →
      exec .decodeU64 s = .next { s with err := .overflow, done := true, phase := .idle }) ∧
    (s.idx < s.len →
      (s.cfg.policy = .fault → s.idx ≤ 9 ∧ (s.idx = 9 → (s.memRead s.idx).toNat % 128 < 2)) →
      let a := s.a64 ||| BitVec.ofNat 64 ((s.memRead s.idx).toNat % 128 * 2 ^ (7 * s.idx))
      (128 ≤ (s.memRead s.idx).toNat →
        exec .decodeU64 s = .next { s with a64 := a, idx := s.idx + 1 }) ∧
      ((s.memRead s.idx).toNat < 128 →
        exec .decodeU64 s = .next { s with a64 := a, val := a, phase := .idle, done := true }))

/-- R118 to R122: one group of `encodeBigSigned`: divide by 128, set the seven sign bits of a negative quotient, test
for the end on the filled value and bit 6 of the remainder, append. -/
def Obligations.EncodeBigSignedIteration : Prop :=
  ∀ s : State, s.phase = .run → s.hasCell s.idx = true →
    let r := s.w % 128
    let w1 := if s.neg then s.w / 128 ||| 127 * 2 ^ (max s.size 7 - 7) else s.w / 128
    let last := (s.neg = false ∧ w1 = 0 ∧ r < 64) ∨ (s.neg = true ∧ w1 % 2 ^ s.size = 2 ^ s.size - 1 ∧ 64 ≤ r)
    (last →
      exec .encodeBigSigned s = .next { s with
        buf := Memory.put s.buf s.idx (BitVec.ofNat 8 r), w := w1,
        len := s.idx + 1, phase := .idle, done := true }) ∧
    (¬ last →
      exec .encodeBigSigned s = .next { s with
        buf := Memory.put s.buf s.idx (BitVec.ofNat 8 (r + 128)), w := w1, idx := s.idx + 1 })

/-- R137 to R141: one group of `decodeBigSigned`. On the terminating group the magnitude is the accumulator, or
its two's complement after padding to whole bytes; it is written only if it fits `MAGBITS`. That `ACC` is not written
either when it does not fit is the model's reading of R193 over line 3 of R137 (log entry 9). -/
def Obligations.DecodeBigSignedIteration : Prop :=
  ∀ s : State, s.phase = .run →
    (s.len ≤ s.idx →
      exec .decodeBigSigned s = .next { s with err := .invalidEncoding, done := true, phase := .idle }) ∧
    (s.idx < s.len →
      let b := (s.memRead s.idx).toNat
      let a := s.acc ||| b % 128 * 2 ^ (7 * s.idx)
      let mg := if b % 128 < 64 then a else twosComplement (signPad8 a (7 * (s.idx + 1)))
      (128 ≤ b → exec .decodeBigSigned s = .next { s with acc := a, idx := s.idx + 1 }) ∧
      (b < 128 → s.cfg.magbits.admits (bitlen mg) = true →
        exec .decodeBigSigned s = .next { s with
          acc := a, bsign := decide (64 ≤ b), bmag := mg, phase := .idle, done := true }) ∧
      (b < 128 → s.cfg.magbits.admits (bitlen mg) = false →
        exec .decodeBigSigned s = .next { s with err := .capacityExceeded, done := true, phase := .idle }))

/-! ### Frames -/

/-- R40, R56, R116: what an encoder's step leaves unchanged. It stores to the one cell `IDX`, in an iteration step;
every other cell reads as before. `LEN` changes only in the step that ends the command. -/
def Obligations.EncoderStepFrame : Prop :=
  ∀ (i : Instr) (s t : State), i = .encodeU64 ∨ i = .encodeBigSigned → exec i s = .next t →
    (t.cfg = s.cfg ∧ t.val = s.val ∧ t.bsign = s.bsign ∧ t.bmag = s.bmag ∧ t.a64 = s.a64 ∧ t.acc = s.acc) ∧
    (t.epoch = s.epoch ∧ t.draws = s.draws ∧ t.agenda = s.agenda ∧ t.seen = s.seen) ∧
    (i = .encodeU64 → t.w = s.w ∧ t.size = s.size ∧ t.neg = s.neg) ∧
    (i = .encodeBigSigned → t.n = s.n ∧ (s.phase = .run → t.size = s.size ∧ t.neg = s.neg)) ∧
    (∀ j, ¬ (s.phase = .run ∧ j = s.idx) → t.memRead j = s.memRead j) ∧
    (s.phase = .run → t.opr = s.opr ∧ t.err = s.err) ∧
    (t.phase = .run → t.len = s.len ∧ t.done = (if s.phase = .run then s.done else false))

/-- R40, R55: what a decoder's step leaves unchanged. It stores nothing; it writes its destination only in the
step that ends it. -/
def Obligations.DecoderStepFrame : Prop :=
  ∀ (i : Instr) (s t : State), i = .decodeU64 ∨ i = .decodeBigSigned → exec i s = .next t →
    (t.cfg = s.cfg ∧ t.len = s.len ∧ t.n = s.n ∧ t.w = s.w ∧ t.size = s.size ∧ t.neg = s.neg) ∧
    (t.epoch = s.epoch ∧ t.draws = s.draws ∧ t.agenda = s.agenda ∧ t.seen = s.seen) ∧
    (∀ j, t.memRead j = s.memRead j) ∧
    (i = .decodeU64 → t.bsign = s.bsign ∧ t.bmag = s.bmag ∧ t.acc = s.acc) ∧
    (i = .decodeBigSigned → t.val = s.val ∧ t.a64 = s.a64) ∧
    (s.phase = .run → t.opr = s.opr) ∧
    (t.phase = .run → t.val = s.val ∧ t.bsign = s.bsign ∧ t.bmag = s.bmag ∧
      t.done = (if s.phase = .run then s.done else false))

/-! ### Faults -/

/-- R193, R194: a step that raises a fault writes `ERR` and `DONE`, returns to `IDLE`, and does nothing else. -/
def Obligations.FaultEntryWritesStatusOnly : Prop :=
  ∀ (i : Instr) (s t : State), s.phase = .run → s.err = .none → exec i s = .next t → t.err ≠ .none →
    t = { s with err := t.err, done := true, phase := .idle }

/-- R186, R187, R189, R192: which fault an iteration step raises, and exactly when. -/
def Obligations.FaultCauses : Prop :=
  ∀ (i : Instr) (s t : State), s.phase = .run → s.err = .none → exec i s = .next t →
    (t.err = .invalidEncoding ↔ (i = .decodeU64 ∨ i = .decodeBigSigned) ∧ s.len ≤ s.idx) ∧
    (t.err = .overflow ↔ i = .decodeU64 ∧ s.cfg.policy = .fault ∧ s.idx < s.len ∧
      (10 ≤ s.idx ∨ s.idx = 9 ∧ 2 ≤ (s.memRead 9).toNat % 128)) ∧
    (t.err = .capacityExceeded ↔ i = .decodeBigSigned ∧ s.idx < s.len ∧ (s.memRead s.idx).toNat < 128 ∧
      s.magFits (bigResult (s.acc ||| (s.memRead s.idx).toNat % 128 * 2 ^ (7 * s.idx)) s.idx
        (s.memRead s.idx)).2 = false)

/-- R188, R93, R123: no step of an encoder leaves an error in `STATUS`. -/
def Obligations.EncodersRaiseNoFault : Prop :=
  ∀ (i : Instr) (s t : State), i = .encodeU64 ∨ i = .encodeBigSigned → exec i s = .next t →
    (s.phase = .idle ∨ s.err = .none) → t.err = .none

/-- R25, R190: the layout of `STATUS`, and the code of each outcome. -/
def Obligations.StatusLayout : Prop :=
  (∀ s : State, s.status.toNat = 4 * s.err.code.toNat + 2 * s.done.toNat + (if s.phase = .run then 1 else 0)) ∧
  ErrCode.code .none = 0 ∧ ErrCode.code .invalidEncoding = 1 ∧ ErrCode.code .overflow = 2 ∧
  ErrCode.code .capacityExceeded = 3

/-- R25: `BUSY` and `DONE` are never both 1 and `ERR` is non-zero only when `DONE = 1`; every step keeps it. -/
def Obligations.StatusConsistencyKept : Prop :=
  ∀ s t : State, s.statusOk → step s = .next t → t.statusOk

/-- R22, R54, R57, R58: the model's reading of an access to an index that no cell has (log entry 8). A write changes
nothing, so an encoder's step there does all it does but the store; a read gives the free byte of that index. -/
def Obligations.AbsentCellAccess : Prop :=
  ∀ s : State,
    (∀ i b, s.hasCell i = false → s.memWrite i b = s) ∧
    ((∀ c ∈ s.buf, s.hasCell c.1 = true) → ∀ i, s.hasCell i = false →
      s.memRead i = Config.unwrittenByte s.epoch i) ∧
    (s.phase = .run → s.hasCell s.idx = false →
      (s.n.toNat / 128 = 0 →
        exec .encodeU64 s = .next { s with n := 0, len := s.idx + 1, phase := .idle, done := true }) ∧
      (s.n.toNat / 128 ≠ 0 →
        exec .encodeU64 s = .next { s with n := BitVec.ofNat 64 (s.n.toNat / 128), idx := s.idx + 1 }) ∧
      let r := s.w % 128
      let w1 := if s.neg then s.w / 128 ||| 127 * 2 ^ (max s.size 7 - 7) else s.w / 128
      let last := (s.neg = false ∧ w1 = 0 ∧ r < 64) ∨ (s.neg = true ∧ w1 % 2 ^ s.size = 2 ^ s.size - 1 ∧ 64 ≤ r)
      (last → exec .encodeBigSigned s = .next { s with w := w1, len := s.idx + 1, phase := .idle, done := true }) ∧
      (¬ last → exec .encodeBigSigned s = .next { s with w := w1, idx := s.idx + 1 }))

/-! ### The host's accesses -/

/-- R36, R23, R57, R58: what a host write does while `BUSY = 0`. A write to a cell at or above `BUFCAP`, which does not
exist, changes nothing (the model's deduction, log entry 8). A value that does not fit `BMAG` leaves an unspecified one
there (the model's choice, log entry 7). -/
def Obligations.IdleHostWrites : Prop :=
  ∀ (s : State) (rest : List HostAction), s.phase = .idle →
    let wr := fun w => step { s with agenda := .write w :: rest }
    let s0 := { s with agenda := rest }
    (∀ v, wr (.status v) = .next s0) ∧
    (∀ v, wr (.val v) = .next { s0 with val := v }) ∧
    (∀ v, wr (.bsign v) = .next { s0 with bsign := v }) ∧
    (∀ v, s.magFits v = true → wr (.bmag v) = .next { s0 with bmag := v }) ∧
    (∀ v, s.magFits v = false → ∃ m d, s.magFits m = true ∧ wr (.bmag v) = .next { s0 with bmag := m, draws := d }) ∧
    (∀ v, s.cfg.bufcap.admits v = true → wr (.len v) = .next { s0 with len := v }) ∧
    (∀ v, s.cfg.bufcap.admits v = false → wr (.len v) = .next s0) ∧
    (∀ i b, s.hasCell i = true → ∃ t, wr (.buf i b) = .next t ∧ t = { s0 with buf := t.buf } ∧
      t.memRead i = b ∧ ∀ j, j ≠ i → t.memRead j = s.memRead j) ∧
    (∀ i b, s.hasCell i = false → wr (.buf i b) = .next s0) ∧
    (∀ k v, wr (.other k v) = .next s0)

/-- R36, R24, R57, R58: what a host read returns while `BUSY = 0`; it changes no register. A cell at or above `BUFCAP`
reads as the free byte of its index (the model's choice, log entry 8; AbsentCellAccess). -/
def Obligations.IdleHostReads : Prop :=
  ∀ (s : State) (rest : List HostAction), s.phase = .idle →
    let rd := fun r => step { s with agenda := .read r :: rest }
    let got := fun (r : HostReg) (v : Nat) => Host.Outcome.next (φ := Fault) (ρ := Refusal)
      { s with agenda := rest, seen := (r, v) :: s.seen }
    rd .cmd = got .cmd 0 ∧
    rd .status = got .status s.status.toNat ∧
    rd .val = got .val s.val.toNat ∧
    rd .bsign = got .bsign s.bsign.toNat ∧
    rd .bmag = got .bmag s.bmag ∧
    rd .len = got .len s.len ∧
    (∀ i, rd (.buf i) = got (.buf i) (s.memRead i).toNat) ∧
    (∀ k, rd (.other k) = got (.other k) 0)

/-- R37, R172, R214 to R216: while `BUSY = 1` every write is ignored, a `CMD` write among them; a read of `STATUS` is
true, a read of `CMD` or of an unknown number is 0 (R24, R58), any other read returns some value; no read changes a
register of the block. -/
def Obligations.BusyHostAccesses : Prop :=
  ∀ (s : State) (rest : List HostAction), s.phase = .run →
    (∀ c, step { s with agenda := .cmd c :: rest } = .next { s with agenda := rest }) ∧
    (∀ w, step { s with agenda := .write w :: rest } = .next { s with agenda := rest }) ∧
    (∀ r : HostReg, ∃ v d,
      step { s with agenda := .read r :: rest } =
        .next { s with agenda := rest, seen := (r, v) :: s.seen, draws := d } ∧
      (r = .status → v = s.status.toNat) ∧ (r = .cmd → v = 0) ∧ ∀ k, r = .other k → v = 0)

/-- R38, R210, R211, R212: what reset leaves, whatever the block was doing. That the parameters (R26) and the host's lists
(R8) stay is the model's deduction (log entry 13); that the parameters stand in the state is log entry 1. -/
def Obligations.ResetTakesResetValues : Prop :=
  (∀ (s : State) (rest : List HostAction), s.agenda = .rst :: rest →
    ∃ t, step s = .next t ∧ t.phase = .idle ∧ t.done = false ∧ t.err = .none ∧ t.opr = 0 ∧ t.val = 0 ∧
      t.bsign = false ∧ t.bmag = 0 ∧ t.len = 0 ∧ (∀ i, Memory.cell t.buf i = none) ∧
      t.cfg = s.cfg ∧ t.agenda = rest ∧ t.seen = s.seen) ∧
  (State.reset.phase = .idle ∧ State.reset.status = 0 ∧ State.reset.opr = 0 ∧ State.reset.val = 0 ∧
    State.reset.bsign = false ∧ State.reset.bmag = 0 ∧ State.reset.len = 0 ∧ State.reset.cfg = Config.default)

/-! ### The invariant -/

/-- R38, R7: the invariant holds right after every reset of every block whose parameters meet R7, and so of
`State.reset`. -/
def Obligations.ResetMeetsInvariant : Prop :=
  (∀ cfg epoch, cfg.wellFormed = true → Inv (State.atReset cfg epoch)) ∧ Inv State.reset

/-- R21, R22, R23, R25, R27, R29, R31, R124: every step, of the codec or of the host, keeps the invariant. -/
def Obligations.StepKeepsInvariant : Prop := ∀ s t : State, Inv s → step s = .next t → Inv t

/-- R180, R188: the block cannot hang, nothing it does is stuck, and there is no access fault: from every state, reached
or not, and with every host, a step answers a next state. -/
def Obligations.NoStepStops : Prop := ∀ s : State, ∃ t, step s = .next t

/-- R53, R54: in every state that meets the invariant no access of a running command is out of bounds: an encoder's step
stores to a cell that exists, and a decoder's step reads, if it reads at all, a cell that exists, below `LEN`. -/
def Obligations.CodecAccessesExistingCells : Prop :=
  ∀ s : State, Inv s → s.phase = .run →
    (decodeCmd s.opr = .encodeU64 ∨ decodeCmd s.opr = .encodeBigSigned ∨ s.idx < s.len) → s.hasCell s.idx = true

/-- R104, R125, R146, R180: a running command ends within its bound on iteration steps. -/
def Obligations.CommandEndsWithinBound : Prop :=
  ∀ s : State, Inv s → s.phase = .run → s.agenda = [] →
    ∃ k t, 1 ≤ k ∧ k ≤ commandBound s ∧ steps k s = .next t ∧ t.phase = .idle ∧ t.done = true

/-! ### Closed forms -/

/-- R94: `encodeU64` takes its start and `k` steps, and writes the `k` groups of `VAL`; nothing else changes but
`LEN`, `STATUS`, `OPR` and its working registers. -/
def Obligations.EncodeU64ClosedForm : Prop :=
  ∀ s : State, s.phase = .idle → s.cfg.wellFormed = true →
    let v := s.val.toNat
    let k := unsignedLen v
    steps (k + 1) (s.issue .encodeU64) = .next { s with
      opr := 0b00#2, done := true, err := .none, len := k, buf := putGroups s.buf v k k,
      idx := k - 1, n := 0, agenda := [] } ∧
    1 ≤ k ∧ k ≤ 10 ∧ (groupOf v k (k - 1) = 0 → v = 0)

/-- R107, `fault` policy: the six cases on the number `c` of leading bytes that continue. -/
def Obligations.DecodeU64ClosedFormFault : Prop :=
  ∀ s : State, s.phase = .idle → s.cfg.policy = .fault →
    let f := s.memRead
    let c := leadingConts f s.len
    let p9 := (f 9).toNat % 128
    let ends := fun (k : Nat) (e : ErrCode) (v : Word64) => ∃ i a,
      steps (k + 1) (s.issue .decodeU64) = .next { s with
        opr := 0b01#2, done := true, err := e, val := v, idx := i, a64 := a, agenda := [] }
    (c ≤ 8 → c < s.len → groupSum f (c + 1) < 2 ^ 64 ∧ ends (c + 1) .none (BitVec.ofNat 64 (groupSum f (c + 1)))) ∧
    (c = s.len → s.len ≤ 9 → ends (s.len + 1) .invalidEncoding s.val) ∧
    (9 ≤ c → 10 ≤ s.len → 2 ≤ p9 → ends 10 .overflow s.val) ∧
    (c = 9 → 10 ≤ s.len → p9 < 2 → groupSum f 10 < 2 ^ 64 ∧ ends 10 .none (BitVec.ofNat 64 (groupSum f 10))) ∧
    (10 ≤ c → s.len = 10 → p9 < 2 → ends 11 .invalidEncoding s.val) ∧
    (10 ≤ c → 11 ≤ s.len → p9 < 2 → ends 11 .overflow s.val)

/-- R106, R107, `truncate` policy: the whole sum modulo `2^64`, or `InvalidEncoding`. -/
def Obligations.DecodeU64ClosedFormTruncate : Prop :=
  ∀ s : State, s.phase = .idle → s.cfg.policy = .truncate →
    let f := s.memRead
    let c := leadingConts f s.len
    let ends := fun (k : Nat) (e : ErrCode) (v : Word64) => ∃ i a,
      steps (k + 1) (s.issue .decodeU64) = .next { s with
        opr := 0b01#2, done := true, err := e, val := v, idx := i, a64 := a, agenda := [] }
    (c < s.len → ends (c + 1) .none (BitVec.ofNat 64 (groupSum f (c + 1) % 2 ^ 64))) ∧
    (c = s.len → ends (s.len + 1) .invalidEncoding s.val)

/-- R124, R116: `encodeBigSigned` takes its start and `k` steps, `k` the least number of groups `value(BIG)` fits,
writes its groups, and leaves `BIG` as it was; bit 6 of the last group is the sign. -/
def Obligations.EncodeBigSignedClosedForm : Prop :=
  ∀ (s : State) (k : Nat), s.phase = .idle → s.cfg.wellFormed = true → s.magFits s.bmag = true → leastGroups s.big k →
    (∃ w, steps (k + 1) (s.issue .encodeBigSigned) = .next { s with
      opr := 0b10#2, done := true, err := .none, len := k, buf := putGroups s.buf s.big k k,
      idx := k - 1, w := w, size := bitlen s.bmag, neg := s.bigNeg, agenda := [] }) ∧
    Group.sign (groupOf s.big k (k - 1)) = decide (s.big < 0)

/-- R142: `decodeBigSigned` ends after `LEN + 1` steps with `InvalidEncoding` when no group terminates, and after
`c + 1` steps otherwise, with the value of R73 in `BIG` if its magnitude fits. -/
def Obligations.DecodeBigSignedClosedForm : Prop :=
  ∀ s : State, s.phase = .idle →
    let f := s.memRead
    let c := leadingConts f s.len
    let v : Int := (groupSum f (c + 1) : Int) - (if Group.sign (f c) then 2 ^ (7 * (c + 1)) else 0)
    let ends := fun (k : Nat) (e : ErrCode) (sg : Bool) (mg : Nat) => ∃ i a,
      steps (k + 1) (s.issue .decodeBigSigned) = .next { s with
        opr := 0b11#2, done := true, err := e, bsign := sg, bmag := mg, idx := i, acc := a, agenda := [] }
    (c = s.len → ends (s.len + 1) .invalidEncoding s.bsign s.bmag) ∧
    (c < s.len → s.magFits v.natAbs = true → ends (c + 1) .none (decide (v < 0)) v.natAbs) ∧
    (c < s.len → s.magFits v.natAbs = false → ends (c + 1) .capacityExceeded s.bsign s.bmag)

/-! ### Round trips and canonical form -/

/-- R94, test vector S13: decoding what `encodeU64` wrote gives the value back, under both policies, whatever the
host has written to `VAL` in between. -/
def Obligations.U64RoundTrip : Prop :=
  ∀ (s : State) (x : Word64), s.phase = .idle → s.cfg.wellFormed = true →
    ∃ k j t u, 1 ≤ k ∧ 1 ≤ j ∧ steps k (s.issue .encodeU64) = .next t ∧ t.phase = .idle ∧ t.done = true ∧
      steps j (State.issue { t with val := x } .decodeU64) = .next u ∧ u.phase = .idle ∧ u.done = true ∧
      u.err = .none ∧ u.val = s.val

/-- R142, test vector S14: decoding what `encodeBigSigned` wrote gives the value back, with the sign of a zero
non-negative, whatever the host has written to `BIG` in between. -/
def Obligations.BigSignedRoundTrip : Prop :=
  ∀ (s : State) (sg : Bool) (mg : Nat), s.phase = .idle → s.cfg.wellFormed = true → s.magFits s.bmag = true →
    ∃ k j t u, 1 ≤ k ∧ 1 ≤ j ∧ steps k (s.issue .encodeBigSigned) = .next t ∧ t.phase = .idle ∧ t.done = true ∧
      steps j (State.issue { t with bsign := sg, bmag := mg } .decodeBigSigned) = .next u ∧ u.phase = .idle ∧
      u.done = true ∧ u.err = .none ∧ u.bsign = s.bigNeg ∧ u.bmag = s.bmag ∧ u.big = s.big

/-- R71, R72, R74, R80: what `encodeU64` leaves in the buffer is a complete encoding of `VAL`, and no complete
encoding of it is shorter. -/
def Obligations.EncodeU64WritesShortest : Prop :=
  ∀ s : State, s.phase = .idle → s.cfg.wellFormed = true →
    ∃ k t, 1 ≤ k ∧ steps k (s.issue .encodeU64) = .next t ∧ t.phase = .idle ∧ t.done = true ∧
      t.len = max 1 ((bitlen s.val.toNat + 6) / 7) ∧
      let l := (List.range t.len).map t.memRead
      completeEncoding l = true ∧ unsignedValue l = s.val.toNat ∧
      ∀ l', completeEncoding l' = true → unsignedValue l' = s.val.toNat → l.length ≤ l'.length

/-- R71, R73, R75: what `encodeBigSigned` leaves in the buffer is a complete encoding of `value(BIG)`, and no
complete encoding of it is shorter. -/
def Obligations.EncodeBigSignedWritesShortest : Prop :=
  ∀ s : State, s.phase = .idle → s.cfg.wellFormed = true → s.magFits s.bmag = true →
    ∃ k t, 1 ≤ k ∧ steps k (s.issue .encodeBigSigned) = .next t ∧ t.phase = .idle ∧ t.done = true ∧
      let l := (List.range t.len).map t.memRead
      completeEncoding l = true ∧ signedValue l = s.big ∧
      ∀ l', completeEncoding l' = true → signedValue l' = s.big → l.length ≤ l'.length

/-- R81, R125: the length of the signed encoding by the bit length of the magnitude, and that there is one. -/
def Obligations.SignedLengthFormula : Prop :=
  ∀ n : Int,
    let b := bitlen n.natAbs
    leastGroups n (if n < 0 ∧ n.natAbs = 2 ^ (b - 1) then (b + 6) / 7 else b / 7 + 1) ∧
    ∀ k, leastGroups n k → k ≤ b / 7 + 1

/-! ### Noninterference -/

/-- R35, R39, R173: two machines that differ only in working registers, both idle, never differ in anything
else, whatever their host does: "nothing carries over from an earlier command". -/
def Obligations.WorkingRegistersUnobservable : Prop :=
  ∀ (k : Nat) (s s' : State), s.phase = .idle → s.withoutWork = s'.withoutWork →
    ∃ t t', steps k s = .next t ∧ steps k s' = .next t' ∧ t.withoutWork = t'.withoutWork

/-- R8, R177: a command's step neither reads nor writes the host beside it. -/
def Obligations.CommandIgnoresHost : Prop :=
  ∀ (i : Instr) (s : State) (agenda : List HostAction) (seen : List (HostReg × Nat)) (draws : Nat),
    exec i (s.withHost agenda seen draws) = mapNext (fun t => t.withHost agenda seen draws) (exec i s)

/-- R55, R104, R146: a decoder does not read beyond the first group whose continuation bit is clear. Two machines
whose buffers agree up to that group, at index `c`, end the same, whatever lies after it and wherever `LEN` is. -/
def Obligations.DecoderReadsNoFurther : Prop :=
  ∀ (i : Instr) (s : State) (buf : Memory) (len c : Nat),
    let s' := { s with buf := buf, len := len }
    i = .decodeU64 ∨ i = .decodeBigSigned → s.phase = .idle →
    c < s.len → c < len →
    (∀ j ≤ c, s'.memRead j = s.memRead j) → (∀ j < c, Group.cont (s.memRead j) = true) →
    Group.cont (s.memRead c) = false →
    ∃ t, steps (c + 2) (s.issue i) = .next t ∧ t.phase = .idle ∧ t.done = true ∧
      steps (c + 2) (s'.issue i) = .next { t with buf := buf, len := len }

/-! ### Helper units -/

/-- R150: `bitlen` and `bytelen`. -/
def Obligations.BitlenBytelen : Prop :=
  bitlen 0 = 0 ∧ bytelen 0 = 0 ∧
  (∀ m, 0 < m → 2 ^ (bitlen m - 1) ≤ m ∧ m < 2 ^ bitlen m ∧ 1 ≤ bitlen m) ∧
  (∀ m, bitlen m ≤ 8 * bytelen m ∧ 8 * bytelen m < bitlen m + 8)

/-- R151, R152, R164: the two 64-bit shifters in arithmetic, and when they lose a bit. -/
def Obligations.Shifters64 : Prop :=
  (∀ (v : Word64) (s : Nat), s < 64 → (shl64 v s).toNat = v.toNat * 2 ^ s % 2 ^ 64) ∧
  (∀ (v : Word64) (s : Nat), 64 ≤ s → shl64 v s = 0) ∧
  (∀ v : Word64, (shr64 v).toNat = v.toNat / 128) ∧
  (∀ v : Word64, shr64 v = 0 ↔ v.toNat < 128) ∧
  (∀ (p : Payload) (s : Nat), s < 64 →
    ((shl64 (p.setWidth 64) s).toNat ≠ p.toNat * 2 ^ s ↔ 2 ^ 64 ≤ p.toNat * 2 ^ s))

/-- R157, R158: byte export and import are inverse, export is the shortest, and `flipBytes` inverts a whole number
of bytes. -/
def Obligations.ByteExportImport : Prop :=
  ∀ m : Nat, (toBytesBE m).length = bytelen m ∧ fromBytesBE (toBytesBE m) = m ∧
    (∀ b rest, toBytesBE m = b :: rest → b ≠ 0) ∧
    (∀ bs, fromBytesBE (0 :: bs) = fromBytesBE bs) ∧
    flipBytes m + 1 + m = 2 ^ (8 * bytelen m)

/-- R159: the formula of `twosComplement`, its range, its low bits, and that it is no involution. -/
def Obligations.TwosComplementLaws : Prop :=
  (∀ m, twosComplement m = 2 ^ (8 * bytelen m) - m) ∧
  (∀ m, 0 < m → 0 < twosComplement m ∧ twosComplement m < 2 ^ (8 * bytelen m)) ∧
  (∀ m j, j ≤ 8 * bytelen m → (twosComplement m : Int) % 2 ^ j = -(m : Int) % 2 ^ j) ∧
  (∀ m, 0 < m → (twosComplement (twosComplement m) = m ↔ bytelen (twosComplement m) = bytelen m)) ∧
  twosComplement 0 = 1 ∧ twosComplement 0xFF01 = 0xFF ∧ twosComplement 0xFF = 0x01

/-- R160, R120: `signFill7` sets exactly the seven bits below `max(size, 7)`. -/
def Obligations.SignFillSetsSevenBits : Prop :=
  ∀ q size : Nat,
    signFill7 q size = q ||| 0x7F <<< (max size 7 - 7) ∧
    ∀ j, (signFill7 q size).testBit j = (q.testBit j || decide (max size 7 - 7 ≤ j ∧ j < max size 7))

/-- R161: `signPad8` sets exactly the bits from `T` up to a whole number of bytes. -/
def Obligations.SignPadFillsTheLastByte : Prop :=
  ∀ a t : Nat, t ≤ padWidth t ∧ padWidth t < t + 8 ∧ padWidth t % 8 = 0 ∧
    signPad8 a t = a ||| (2 ^ padWidth t - 2 ^ t) ∧
    (∀ j, (signPad8 a t).testBit j = (a.testBit j || decide (t ≤ j ∧ j < padWidth t))) ∧
    (a < 2 ^ t → signPad8 a t = a + 2 ^ padWidth t - 2 ^ t)

/-- R140: the decoder's negative result. Padding and complementing an accumulator whose top payload bit is set gives
`2^(7k) - a`, a magnitude in `1 .. 2^(7k-1)`, never 0. -/
def Obligations.NegativeResultMagnitude : Prop :=
  ∀ a k : Nat, 1 ≤ k → 2 ^ (7 * k - 1) ≤ a → a < 2 ^ (7 * k) →
    twosComplement (signPad8 a (7 * k)) = 2 ^ (7 * k) - a ∧
    1 ≤ 2 ^ (7 * k) - a ∧ 2 ^ (7 * k) - a ≤ 2 ^ (7 * k - 1) ∧
    bytelen (signPad8 a (7 * k)) = padWidth (7 * k) / 8

/-- R166: the bytes `encodeBigSigned` writes do not depend on how many bytes the two's complement was taken over. -/
def Obligations.ByteLengthIndependence : Prop :=
  ∀ (s : State) (l : Nat), s.phase = .idle → s.cfg.wellFormed = true → s.magFits s.bmag = true →
    s.bigNeg = true → bytelen s.bmag ≤ l →
    let s0 := { startEncodeBigSigned s with agenda := [] }
    ∃ k t t', steps k s0 = .next t ∧ steps k { s0 with w := 2 ^ (8 * l) - s.bmag } = .next t' ∧
      t.done = true ∧ t'.done = true ∧ t'.len = t.len ∧ t'.buf = t.buf

/-- R21, R140: `decodeBigSigned` never produces the pair (`BSIGN = 1`, `BMAG = 0`). -/
def Obligations.NoNegativeZeroProduced : Prop :=
  ∀ s t : State, Inv s → s.phase = .run → decodeCmd s.opr = .decodeBigSigned → exec .decodeBigSigned s = .next t →
    t.bsign = true → t.bmag = 0 → t.bsign = s.bsign ∧ t.bmag = s.bmag
end

