-- ==== Sys2Proof/Laws/State.lean ====
section
/-! SUPPORT. The small laws of State: for each named update, what it does to each field, and to the views of the
state that depend on the parameters and the buffer alone. -/

namespace Sys2Proof.Machine

/-! ### `startCommon` -/

@[simp] theorem State.startCommon_cfg (s : State) (c : CmdCode) :
    (s.startCommon c).cfg = s.cfg := rfl
@[simp] theorem State.startCommon_phase (s : State) (c : CmdCode) :
    (s.startCommon c).phase = .run := rfl
@[simp] theorem State.startCommon_done (s : State) (c : CmdCode) :
    (s.startCommon c).done = false := rfl
@[simp] theorem State.startCommon_err (s : State) (c : CmdCode) :
    (s.startCommon c).err = .none := rfl
@[simp] theorem State.startCommon_opr (s : State) (c : CmdCode) :
    (s.startCommon c).opr = c := rfl
@[simp] theorem State.startCommon_val (s : State) (c : CmdCode) :
    (s.startCommon c).val = s.val := rfl
@[simp] theorem State.startCommon_bsign (s : State) (c : CmdCode) :
    (s.startCommon c).bsign = s.bsign := rfl
@[simp] theorem State.startCommon_bmag (s : State) (c : CmdCode) :
    (s.startCommon c).bmag = s.bmag := rfl
@[simp] theorem State.startCommon_len (s : State) (c : CmdCode) :
    (s.startCommon c).len = s.len := rfl
@[simp] theorem State.startCommon_buf (s : State) (c : CmdCode) :
    (s.startCommon c).buf = s.buf := rfl
@[simp] theorem State.startCommon_idx (s : State) (c : CmdCode) :
    (s.startCommon c).idx = s.idx := rfl
@[simp] theorem State.startCommon_n (s : State) (c : CmdCode) :
    (s.startCommon c).n = s.n := rfl
@[simp] theorem State.startCommon_a64 (s : State) (c : CmdCode) :
    (s.startCommon c).a64 = s.a64 := rfl
@[simp] theorem State.startCommon_w (s : State) (c : CmdCode) :
    (s.startCommon c).w = s.w := rfl
@[simp] theorem State.startCommon_size (s : State) (c : CmdCode) :
    (s.startCommon c).size = s.size := rfl
@[simp] theorem State.startCommon_neg (s : State) (c : CmdCode) :
    (s.startCommon c).neg = s.neg := rfl
@[simp] theorem State.startCommon_acc (s : State) (c : CmdCode) :
    (s.startCommon c).acc = s.acc := rfl
@[simp] theorem State.startCommon_epoch (s : State) (c : CmdCode) :
    (s.startCommon c).epoch = s.epoch := rfl
@[simp] theorem State.startCommon_draws (s : State) (c : CmdCode) :
    (s.startCommon c).draws = s.draws := rfl
@[simp] theorem State.startCommon_agenda (s : State) (c : CmdCode) :
    (s.startCommon c).agenda = s.agenda := rfl
@[simp] theorem State.startCommon_seen (s : State) (c : CmdCode) :
    (s.startCommon c).seen = s.seen := rfl
@[simp] theorem State.startCommon_hasCell (s : State) (c : CmdCode) (j : Nat) :
    (s.startCommon c).hasCell j = s.hasCell j := rfl
@[simp] theorem State.startCommon_magFits (s : State) (c : CmdCode) (m : Nat) :
    (s.startCommon c).magFits m = s.magFits m := rfl
@[simp] theorem State.startCommon_memRead (s : State) (c : CmdCode) (j : Nat) :
    (s.startCommon c).memRead j = s.memRead j := rfl
@[simp] theorem State.startCommon_big (s : State) (c : CmdCode) :
    (s.startCommon c).big = s.big := rfl
@[simp] theorem State.startCommon_bigNeg (s : State) (c : CmdCode) :
    (s.startCommon c).bigNeg = s.bigNeg := rfl

/-! ### `finish` -/

@[simp] theorem State.finish_cfg (s : State) :
    s.finish.cfg = s.cfg := rfl
@[simp] theorem State.finish_phase (s : State) :
    s.finish.phase = .idle := rfl
@[simp] theorem State.finish_done (s : State) :
    s.finish.done = true := rfl
@[simp] theorem State.finish_err (s : State) :
    s.finish.err = s.err := rfl
@[simp] theorem State.finish_opr (s : State) :
    s.finish.opr = s.opr := rfl
@[simp] theorem State.finish_val (s : State) :
    s.finish.val = s.val := rfl
@[simp] theorem State.finish_bsign (s : State) :
    s.finish.bsign = s.bsign := rfl
@[simp] theorem State.finish_bmag (s : State) :
    s.finish.bmag = s.bmag := rfl
@[simp] theorem State.finish_len (s : State) :
    s.finish.len = s.len := rfl
@[simp] theorem State.finish_buf (s : State) :
    s.finish.buf = s.buf := rfl
@[simp] theorem State.finish_idx (s : State) :
    s.finish.idx = s.idx := rfl
@[simp] theorem State.finish_n (s : State) :
    s.finish.n = s.n := rfl
@[simp] theorem State.finish_a64 (s : State) :
    s.finish.a64 = s.a64 := rfl
@[simp] theorem State.finish_w (s : State) :
    s.finish.w = s.w := rfl
@[simp] theorem State.finish_size (s : State) :
    s.finish.size = s.size := rfl
@[simp] theorem State.finish_neg (s : State) :
    s.finish.neg = s.neg := rfl
@[simp] theorem State.finish_acc (s : State) :
    s.finish.acc = s.acc := rfl
@[simp] theorem State.finish_epoch (s : State) :
    s.finish.epoch = s.epoch := rfl
@[simp] theorem State.finish_draws (s : State) :
    s.finish.draws = s.draws := rfl
@[simp] theorem State.finish_agenda (s : State) :
    s.finish.agenda = s.agenda := rfl
@[simp] theorem State.finish_seen (s : State) :
    s.finish.seen = s.seen := rfl
@[simp] theorem State.finish_hasCell (s : State) (j : Nat) :
    s.finish.hasCell j = s.hasCell j := rfl
@[simp] theorem State.finish_magFits (s : State) (m : Nat) :
    s.finish.magFits m = s.magFits m := rfl
@[simp] theorem State.finish_memRead (s : State) (j : Nat) :
    s.finish.memRead j = s.memRead j := rfl
@[simp] theorem State.finish_big (s : State) :
    s.finish.big = s.big := rfl
@[simp] theorem State.finish_bigNeg (s : State) :
    s.finish.bigNeg = s.bigNeg := rfl

/-! ### `raise` -/

@[simp] theorem State.raise_cfg (s : State) (f : ErrCode) :
    (s.raise f).cfg = s.cfg := rfl
@[simp] theorem State.raise_phase (s : State) (f : ErrCode) :
    (s.raise f).phase = .idle := rfl
@[simp] theorem State.raise_done (s : State) (f : ErrCode) :
    (s.raise f).done = true := rfl
@[simp] theorem State.raise_err (s : State) (f : ErrCode) :
    (s.raise f).err = f := rfl
@[simp] theorem State.raise_opr (s : State) (f : ErrCode) :
    (s.raise f).opr = s.opr := rfl
@[simp] theorem State.raise_val (s : State) (f : ErrCode) :
    (s.raise f).val = s.val := rfl
@[simp] theorem State.raise_bsign (s : State) (f : ErrCode) :
    (s.raise f).bsign = s.bsign := rfl
@[simp] theorem State.raise_bmag (s : State) (f : ErrCode) :
    (s.raise f).bmag = s.bmag := rfl
@[simp] theorem State.raise_len (s : State) (f : ErrCode) :
    (s.raise f).len = s.len := rfl
@[simp] theorem State.raise_buf (s : State) (f : ErrCode) :
    (s.raise f).buf = s.buf := rfl
@[simp] theorem State.raise_idx (s : State) (f : ErrCode) :
    (s.raise f).idx = s.idx := rfl
@[simp] theorem State.raise_n (s : State) (f : ErrCode) :
    (s.raise f).n = s.n := rfl
@[simp] theorem State.raise_a64 (s : State) (f : ErrCode) :
    (s.raise f).a64 = s.a64 := rfl
@[simp] theorem State.raise_w (s : State) (f : ErrCode) :
    (s.raise f).w = s.w := rfl
@[simp] theorem State.raise_size (s : State) (f : ErrCode) :
    (s.raise f).size = s.size := rfl
@[simp] theorem State.raise_neg (s : State) (f : ErrCode) :
    (s.raise f).neg = s.neg := rfl
@[simp] theorem State.raise_acc (s : State) (f : ErrCode) :
    (s.raise f).acc = s.acc := rfl
@[simp] theorem State.raise_epoch (s : State) (f : ErrCode) :
    (s.raise f).epoch = s.epoch := rfl
@[simp] theorem State.raise_draws (s : State) (f : ErrCode) :
    (s.raise f).draws = s.draws := rfl
@[simp] theorem State.raise_agenda (s : State) (f : ErrCode) :
    (s.raise f).agenda = s.agenda := rfl
@[simp] theorem State.raise_seen (s : State) (f : ErrCode) :
    (s.raise f).seen = s.seen := rfl
@[simp] theorem State.raise_hasCell (s : State) (f : ErrCode) (j : Nat) :
    (s.raise f).hasCell j = s.hasCell j := rfl
@[simp] theorem State.raise_magFits (s : State) (f : ErrCode) (m : Nat) :
    (s.raise f).magFits m = s.magFits m := rfl
@[simp] theorem State.raise_memRead (s : State) (f : ErrCode) (j : Nat) :
    (s.raise f).memRead j = s.memRead j := rfl
@[simp] theorem State.raise_big (s : State) (f : ErrCode) :
    (s.raise f).big = s.big := rfl
@[simp] theorem State.raise_bigNeg (s : State) (f : ErrCode) :
    (s.raise f).bigNeg = s.bigNeg := rfl

/-! ### `memWrite` -/

@[simp] theorem State.memWrite_cfg (s : State) (i : Nat) (v : Byte) :
    (s.memWrite i v).cfg = s.cfg := rfl
@[simp] theorem State.memWrite_phase (s : State) (i : Nat) (v : Byte) :
    (s.memWrite i v).phase = s.phase := rfl
@[simp] theorem State.memWrite_done (s : State) (i : Nat) (v : Byte) :
    (s.memWrite i v).done = s.done := rfl
@[simp] theorem State.memWrite_err (s : State) (i : Nat) (v : Byte) :
    (s.memWrite i v).err = s.err := rfl
@[simp] theorem State.memWrite_opr (s : State) (i : Nat) (v : Byte) :
    (s.memWrite i v).opr = s.opr := rfl
@[simp] theorem State.memWrite_val (s : State) (i : Nat) (v : Byte) :
    (s.memWrite i v).val = s.val := rfl
@[simp] theorem State.memWrite_bsign (s : State) (i : Nat) (v : Byte) :
    (s.memWrite i v).bsign = s.bsign := rfl
@[simp] theorem State.memWrite_bmag (s : State) (i : Nat) (v : Byte) :
    (s.memWrite i v).bmag = s.bmag := rfl
@[simp] theorem State.memWrite_len (s : State) (i : Nat) (v : Byte) :
    (s.memWrite i v).len = s.len := rfl
@[simp] theorem State.memWrite_buf (s : State) (i : Nat) (v : Byte) :
    (s.memWrite i v).buf = (if s.hasCell i then Memory.put s.buf i v else s.buf) := rfl
@[simp] theorem State.memWrite_idx (s : State) (i : Nat) (v : Byte) :
    (s.memWrite i v).idx = s.idx := rfl
@[simp] theorem State.memWrite_n (s : State) (i : Nat) (v : Byte) :
    (s.memWrite i v).n = s.n := rfl
@[simp] theorem State.memWrite_a64 (s : State) (i : Nat) (v : Byte) :
    (s.memWrite i v).a64 = s.a64 := rfl
@[simp] theorem State.memWrite_w (s : State) (i : Nat) (v : Byte) :
    (s.memWrite i v).w = s.w := rfl
@[simp] theorem State.memWrite_size (s : State) (i : Nat) (v : Byte) :
    (s.memWrite i v).size = s.size := rfl
@[simp] theorem State.memWrite_neg (s : State) (i : Nat) (v : Byte) :
    (s.memWrite i v).neg = s.neg := rfl
@[simp] theorem State.memWrite_acc (s : State) (i : Nat) (v : Byte) :
    (s.memWrite i v).acc = s.acc := rfl
@[simp] theorem State.memWrite_epoch (s : State) (i : Nat) (v : Byte) :
    (s.memWrite i v).epoch = s.epoch := rfl
@[simp] theorem State.memWrite_draws (s : State) (i : Nat) (v : Byte) :
    (s.memWrite i v).draws = s.draws := rfl
@[simp] theorem State.memWrite_agenda (s : State) (i : Nat) (v : Byte) :
    (s.memWrite i v).agenda = s.agenda := rfl
@[simp] theorem State.memWrite_seen (s : State) (i : Nat) (v : Byte) :
    (s.memWrite i v).seen = s.seen := rfl
@[simp] theorem State.memWrite_hasCell (s : State) (i : Nat) (v : Byte) (j : Nat) :
    (s.memWrite i v).hasCell j = s.hasCell j := rfl
@[simp] theorem State.memWrite_magFits (s : State) (i : Nat) (v : Byte) (m : Nat) :
    (s.memWrite i v).magFits m = s.magFits m := rfl
@[simp] theorem State.memWrite_big (s : State) (i : Nat) (v : Byte) :
    (s.memWrite i v).big = s.big := rfl
@[simp] theorem State.memWrite_bigNeg (s : State) (i : Nat) (v : Byte) :
    (s.memWrite i v).bigNeg = s.bigNeg := rfl

/-! ### `withHost` -/

@[simp] theorem State.withHost_cfg (s : State) (g : List HostAction) (h : List (HostReg × Nat)) (d : Nat) :
    (s.withHost g h d).cfg = s.cfg := rfl
@[simp] theorem State.withHost_phase (s : State) (g : List HostAction) (h : List (HostReg × Nat)) (d : Nat) :
    (s.withHost g h d).phase = s.phase := rfl
@[simp] theorem State.withHost_done (s : State) (g : List HostAction) (h : List (HostReg × Nat)) (d : Nat) :
    (s.withHost g h d).done = s.done := rfl
@[simp] theorem State.withHost_err (s : State) (g : List HostAction) (h : List (HostReg × Nat)) (d : Nat) :
    (s.withHost g h d).err = s.err := rfl
@[simp] theorem State.withHost_opr (s : State) (g : List HostAction) (h : List (HostReg × Nat)) (d : Nat) :
    (s.withHost g h d).opr = s.opr := rfl
@[simp] theorem State.withHost_val (s : State) (g : List HostAction) (h : List (HostReg × Nat)) (d : Nat) :
    (s.withHost g h d).val = s.val := rfl
@[simp] theorem State.withHost_bsign (s : State) (g : List HostAction) (h : List (HostReg × Nat)) (d : Nat) :
    (s.withHost g h d).bsign = s.bsign := rfl
@[simp] theorem State.withHost_bmag (s : State) (g : List HostAction) (h : List (HostReg × Nat)) (d : Nat) :
    (s.withHost g h d).bmag = s.bmag := rfl
@[simp] theorem State.withHost_len (s : State) (g : List HostAction) (h : List (HostReg × Nat)) (d : Nat) :
    (s.withHost g h d).len = s.len := rfl
@[simp] theorem State.withHost_buf (s : State) (g : List HostAction) (h : List (HostReg × Nat)) (d : Nat) :
    (s.withHost g h d).buf = s.buf := rfl
@[simp] theorem State.withHost_idx (s : State) (g : List HostAction) (h : List (HostReg × Nat)) (d : Nat) :
    (s.withHost g h d).idx = s.idx := rfl
@[simp] theorem State.withHost_n (s : State) (g : List HostAction) (h : List (HostReg × Nat)) (d : Nat) :
    (s.withHost g h d).n = s.n := rfl
@[simp] theorem State.withHost_a64 (s : State) (g : List HostAction) (h : List (HostReg × Nat)) (d : Nat) :
    (s.withHost g h d).a64 = s.a64 := rfl
@[simp] theorem State.withHost_w (s : State) (g : List HostAction) (h : List (HostReg × Nat)) (d : Nat) :
    (s.withHost g h d).w = s.w := rfl
@[simp] theorem State.withHost_size (s : State) (g : List HostAction) (h : List (HostReg × Nat)) (d : Nat) :
    (s.withHost g h d).size = s.size := rfl
@[simp] theorem State.withHost_neg (s : State) (g : List HostAction) (h : List (HostReg × Nat)) (d : Nat) :
    (s.withHost g h d).neg = s.neg := rfl
@[simp] theorem State.withHost_acc (s : State) (g : List HostAction) (h : List (HostReg × Nat)) (d : Nat) :
    (s.withHost g h d).acc = s.acc := rfl
@[simp] theorem State.withHost_epoch (s : State) (g : List HostAction) (h : List (HostReg × Nat)) (d : Nat) :
    (s.withHost g h d).epoch = s.epoch := rfl
@[simp] theorem State.withHost_draws (s : State) (g : List HostAction) (h : List (HostReg × Nat)) (d : Nat) :
    (s.withHost g h d).draws = d := rfl
@[simp] theorem State.withHost_agenda (s : State) (g : List HostAction) (h : List (HostReg × Nat)) (d : Nat) :
    (s.withHost g h d).agenda = g := rfl
@[simp] theorem State.withHost_seen (s : State) (g : List HostAction) (h : List (HostReg × Nat)) (d : Nat) :
    (s.withHost g h d).seen = h := rfl
@[simp] theorem State.withHost_hasCell (s : State) (g : List HostAction) (h : List (HostReg × Nat)) (d : Nat) (j : Nat) :
    (s.withHost g h d).hasCell j = s.hasCell j := rfl
@[simp] theorem State.withHost_magFits (s : State) (g : List HostAction) (h : List (HostReg × Nat)) (d : Nat) (m : Nat) :
    (s.withHost g h d).magFits m = s.magFits m := rfl
@[simp] theorem State.withHost_memRead (s : State) (g : List HostAction) (h : List (HostReg × Nat)) (d : Nat) (j : Nat) :
    (s.withHost g h d).memRead j = s.memRead j := rfl
@[simp] theorem State.withHost_big (s : State) (g : List HostAction) (h : List (HostReg × Nat)) (d : Nat) :
    (s.withHost g h d).big = s.big := rfl
@[simp] theorem State.withHost_bigNeg (s : State) (g : List HostAction) (h : List (HostReg × Nat)) (d : Nat) :
    (s.withHost g h d).bigNeg = s.bigNeg := rfl

/-! ### `issue` -/

@[simp] theorem State.issue_cfg (s : State) (i : Instr) :
    (s.issue i).cfg = s.cfg := rfl
@[simp] theorem State.issue_phase (s : State) (i : Instr) :
    (s.issue i).phase = s.phase := rfl
@[simp] theorem State.issue_done (s : State) (i : Instr) :
    (s.issue i).done = s.done := rfl
@[simp] theorem State.issue_err (s : State) (i : Instr) :
    (s.issue i).err = s.err := rfl
@[simp] theorem State.issue_opr (s : State) (i : Instr) :
    (s.issue i).opr = s.opr := rfl
@[simp] theorem State.issue_val (s : State) (i : Instr) :
    (s.issue i).val = s.val := rfl
@[simp] theorem State.issue_bsign (s : State) (i : Instr) :
    (s.issue i).bsign = s.bsign := rfl
@[simp] theorem State.issue_bmag (s : State) (i : Instr) :
    (s.issue i).bmag = s.bmag := rfl
@[simp] theorem State.issue_len (s : State) (i : Instr) :
    (s.issue i).len = s.len := rfl
@[simp] theorem State.issue_buf (s : State) (i : Instr) :
    (s.issue i).buf = s.buf := rfl
@[simp] theorem State.issue_idx (s : State) (i : Instr) :
    (s.issue i).idx = s.idx := rfl
@[simp] theorem State.issue_n (s : State) (i : Instr) :
    (s.issue i).n = s.n := rfl
@[simp] theorem State.issue_a64 (s : State) (i : Instr) :
    (s.issue i).a64 = s.a64 := rfl
@[simp] theorem State.issue_w (s : State) (i : Instr) :
    (s.issue i).w = s.w := rfl
@[simp] theorem State.issue_size (s : State) (i : Instr) :
    (s.issue i).size = s.size := rfl
@[simp] theorem State.issue_neg (s : State) (i : Instr) :
    (s.issue i).neg = s.neg := rfl
@[simp] theorem State.issue_acc (s : State) (i : Instr) :
    (s.issue i).acc = s.acc := rfl
@[simp] theorem State.issue_epoch (s : State) (i : Instr) :
    (s.issue i).epoch = s.epoch := rfl
@[simp] theorem State.issue_draws (s : State) (i : Instr) :
    (s.issue i).draws = s.draws := rfl
@[simp] theorem State.issue_agenda (s : State) (i : Instr) :
    (s.issue i).agenda = [.cmd (encode i)] := rfl
@[simp] theorem State.issue_seen (s : State) (i : Instr) :
    (s.issue i).seen = s.seen := rfl
@[simp] theorem State.issue_hasCell (s : State) (i : Instr) (j : Nat) :
    (s.issue i).hasCell j = s.hasCell j := rfl
@[simp] theorem State.issue_magFits (s : State) (i : Instr) (m : Nat) :
    (s.issue i).magFits m = s.magFits m := rfl
@[simp] theorem State.issue_memRead (s : State) (i : Instr) (j : Nat) :
    (s.issue i).memRead j = s.memRead j := rfl
@[simp] theorem State.issue_big (s : State) (i : Instr) :
    (s.issue i).big = s.big := rfl
@[simp] theorem State.issue_bigNeg (s : State) (i : Instr) :
    (s.issue i).bigNeg = s.bigNeg := rfl

end Sys2Proof.Machine
end

