-- ==== Sys2Proof/Laws/Memory.lean ====
section
/-! SUPPORT. The laws of the buffer: reading after writing, the canonical form, and that equal reads of canonical
memories mean equal memories. -/

namespace Sys2Proof.Machine

theorem Memory.cell_put_same (m : Memory) (i : Nat) (v : Byte) : Memory.cell (Memory.put m i v) i = some v := by
  induction m with
  | nil => simp [Memory.put, Memory.cell]
  | cons c m ih =>
    obtain ⟨k, b⟩ := c
    simp only [Memory.put]
    split
    · simp [Memory.cell]
    · split
      · simp [Memory.cell]
      · rw [Memory.cell, if_neg (by omega), ih]

theorem Memory.cell_put_ne (m : Memory) {i j : Nat} (v : Byte) (h : j ≠ i) :
    Memory.cell (Memory.put m i v) j = Memory.cell m j := by
  induction m with
  | nil => simp [Memory.put, Memory.cell, Ne.symm h]
  | cons c m ih =>
    obtain ⟨k, b⟩ := c
    simp only [Memory.put]
    split
    · rw [Memory.cell, if_neg (Ne.symm h)]
    · split
      · subst_vars
        simp [Memory.cell, Ne.symm h]
      · simp only [Memory.cell, ih]

/-- A write adds no key but its own. -/
theorem Memory.mem_put {m : Memory} {i : Nat} {v : Byte} {c : Host.Cell} (h : c ∈ Memory.put m i v) :
    c = (i, v) ∨ c ∈ m := by
  induction m with
  | nil => simpa [Memory.put] using h
  | cons d m ih =>
    obtain ⟨k, b⟩ := d
    simp only [Memory.put] at h
    split at h
    · simpa using h
    · split at h
      · rcases List.mem_cons.1 h with rfl | h
        · exact .inl rfl
        · exact .inr (List.mem_cons_of_mem _ h)
      · rcases List.mem_cons.1 h with rfl | h
        · exact .inr List.mem_cons_self
        · exact (ih h).imp_right (List.mem_cons_of_mem _)

/-- Every write keeps the canonical form. -/
theorem Memory.put_wf {m : Memory} (i : Nat) (v : Byte) (h : Memory.wf m) : Memory.wf (Memory.put m i v) := by
  induction m with
  | nil => simp [Memory.put]
  | cons d m ih =>
    obtain ⟨k, b⟩ := d
    obtain ⟨hk, hm⟩ := List.pairwise_cons.1 h
    simp only [Memory.put]
    split
    · refine List.pairwise_cons.2 ⟨fun c hc => ?_, h⟩
      rcases List.mem_cons.1 hc with rfl | hc
      · assumption
      · have := hk c hc
        simp only at this ⊢
        omega
    · split
      · subst_vars
        exact List.pairwise_cons.2 ⟨hk, hm⟩
      · refine List.pairwise_cons.2 ⟨fun c hc => ?_, ih hm⟩
        rcases Memory.mem_put hc with rfl | hc
        · show k < i
          omega
        · exact hk c hc

/-- Reset's buffer, with nothing listed, has the canonical form. -/
theorem Memory.reset_wf : Memory.wf State.reset.buf := List.Pairwise.nil

/-- A key below every listed key is unlisted. -/
theorem Memory.cell_below {m : Memory} {i : Nat} (h : ∀ c ∈ m, i < c.1) : Memory.cell m i = none := by
  induction m with
  | nil => rfl
  | cons d m ih =>
    obtain ⟨k, b⟩ := d
    have hk : i < k := h (k, b) List.mem_cons_self
    rw [Memory.cell, if_neg (by omega), ih fun c hc => h c (List.mem_cons_of_mem _ hc)]

/-- Canonical memories that read the same everywhere are the same list. -/
theorem Memory.ext {m m' : Memory} (h : Memory.wf m) (h' : Memory.wf m')
    (e : ∀ i, Memory.cell m i = Memory.cell m' i) : m = m' := by
  induction m generalizing m' with
  | nil =>
    cases m' with
    | nil => rfl
    | cons d m' =>
      have := e d.1
      simp [Memory.cell, Memory.unlisted] at this
  | cons c m ih =>
    cases m' with
    | nil =>
      have := e c.1
      simp [Memory.cell, Memory.unlisted] at this
    | cons d m' =>
      obtain ⟨k, b⟩ := c
      obtain ⟨k', b'⟩ := d
      obtain ⟨hk, hm⟩ := List.pairwise_cons.1 h
      obtain ⟨hk', hm'⟩ := List.pairwise_cons.1 h'
      have hkk : k = k' := by
        rcases lt_trichotomy k k' with hlt | heq | hlt
        · have hx := e k
          rw [Memory.cell_below (m := (k', b') :: m') (i := k)
            (fun c hc => by
              rcases List.mem_cons.1 hc with rfl | hc
              · exact hlt
              · exact hlt.trans (hk' c hc))] at hx
          simp [Memory.cell] at hx
        · exact heq
        · have hx := e k'
          rw [Memory.cell_below (m := (k, b) :: m) (i := k')
            (fun c hc => by
              rcases List.mem_cons.1 hc with rfl | hc
              · exact hlt
              · exact hlt.trans (hk c hc))] at hx
          simp [Memory.cell] at hx
      subst hkk
      have hbb : b = b' := by
        have := e k
        simpa [Memory.cell] using this
      subst hbb
      congr 1
      refine ih hm hm' fun i => ?_
      by_cases hi : k = i
      · subst hi
        rw [Memory.cell_below hk, Memory.cell_below hk']
      · have := e i
        simpa [Memory.cell, hi] using this

/-- A cell that no entry lists holds no value. -/
theorem Memory.cell_of_not_listed {m : Memory} {i : Nat} (h : ∀ c ∈ m, c.1 ≠ i) : Memory.cell m i = none := by
  induction m with
  | nil => rfl
  | cons c rest ih =>
    simp only [Memory.cell, if_neg (h c (by simp))]
    exact ih fun d hd => h d (by simp [hd])

/-! ### Cells of the state -/

/-- R54: a write to an existing cell puts its byte in the buffer. -/
theorem State.memWrite_present {s : State} {i : Nat} (v : Byte) (h : s.hasCell i = true) :
    s.memWrite i v = { s with buf := Memory.put s.buf i v } := by
  simp [State.memWrite, h]

/-- R57, R58: a write to an index that no cell has changes nothing. -/
theorem State.memWrite_absent {s : State} {i : Nat} (v : Byte) (h : s.hasCell i = false) : s.memWrite i v = s := by
  simp [State.memWrite, h]

/-- R54: the cell written reads back. -/
theorem State.memRead_memWrite_same {s : State} {i : Nat} (v : Byte) (h : s.hasCell i = true) :
    (s.memWrite i v).memRead i = v := by
  simp [State.memRead, State.memWrite, h, Memory.cell_put_same]

/-- A write keeps the canonical form. -/
theorem State.memWrite_wf (s : State) (i : Nat) (v : Byte) (h : Memory.wf s.buf) : Memory.wf (s.memWrite i v).buf := by
  cases hc : s.hasCell i
  · rwa [State.memWrite_absent v hc]
  · rw [State.memWrite_present v hc]
    exact Memory.put_wf i v h

/-- An index that no cell has reads as its free byte, where the buffer lists existing cells only. -/
theorem State.memRead_absent {s : State} {i : Nat} (hb : ∀ c ∈ s.buf, s.hasCell c.1 = true) (h : s.hasCell i = false) :
    s.memRead i = Config.unwrittenByte s.epoch i := by
  have hn : ∀ c ∈ s.buf, c.1 ≠ i := fun c hc he => by simp [← he, hb c hc] at h
  rw [State.memRead, Memory.cell_of_not_listed hn]

/-- R54: every other cell reads as before. -/
theorem State.memRead_memWrite_ne (s : State) {i j : Nat} (v : Byte) (h : j ≠ i) :
    (s.memWrite i v).memRead j = s.memRead j := by
  cases hc : s.hasCell i <;> simp [State.memRead, State.memWrite, hc, Memory.cell_put_ne _ _ h]

end Sys2Proof.Machine
end

