-- ==== Sys2Proof/Laws/Ops.lean ====
section
/-! SUPPORT. Everything each shared operation and each command's step can do, said once: later proofs cite these and
do not unfold the operations. -/

namespace Sys2Proof.Machine

/-! ### Commands -/

theorem exec_encodeU64_idle {s : State} (h : s.phase = .idle) :
    exec .encodeU64 s = .next (startEncodeU64 s) := by simp [exec, execEncodeU64, h]
theorem exec_encodeU64_run {s : State} (h : s.phase = .run) :
    exec .encodeU64 s = iterEncodeU64 s := by simp [exec, execEncodeU64, h]
theorem exec_decodeU64_idle {s : State} (h : s.phase = .idle) :
    exec .decodeU64 s = .next (startDecodeU64 s) := by simp [exec, execDecodeU64, h]
theorem exec_decodeU64_run {s : State} (h : s.phase = .run) :
    exec .decodeU64 s = iterDecodeU64 s := by simp [exec, execDecodeU64, h]
theorem exec_encodeBigSigned_idle {s : State} (h : s.phase = .idle) :
    exec .encodeBigSigned s = .next (startEncodeBigSigned s) := by simp [exec, execEncodeBigSigned, h]
theorem exec_encodeBigSigned_run {s : State} (h : s.phase = .run) :
    exec .encodeBigSigned s = iterEncodeBigSigned s := by simp [exec, execEncodeBigSigned, h]
theorem exec_decodeBigSigned_idle {s : State} (h : s.phase = .idle) :
    exec .decodeBigSigned s = .next (startDecodeBigSigned s) := by simp [exec, execDecodeBigSigned, h]
theorem exec_decodeBigSigned_run {s : State} (h : s.phase = .run) :
    exec .decodeBigSigned s = iterDecodeBigSigned s := by simp [exec, execDecodeBigSigned, h]

/-- What an iteration of `encodeU64` does. -/
theorem iterEncodeU64_next (s : State) :
    iterEncodeU64 s = .next
      (State.append { s with n := shr64 s.n } (Group.byte (s.n.extractLsb' 0 7) (!lastU64 (shr64 s.n)))
        (lastU64 (shr64 s.n))) := rfl

/-- The remainder and the filled quotient of a step of `encodeBigSigned`. -/
def bigRem (s : State) : Nat := (divMod128 s.w).2
/-- The filled quotient. -/
def bigFilled (s : State) : Nat :=
  if s.neg then signFill7 (divMod128 s.w).1 s.size else (divMod128 s.w).1

/-- What an iteration of `encodeBigSigned` does. -/
theorem iterEncodeBigSigned_next (s : State) :
    iterEncodeBigSigned s = .next
      (State.append { s with w := bigFilled s }
        (Group.byte (BitVec.ofNat 7 (bigRem s)) (!lastBig s.neg s.size (bigFilled s) (bigRem s)))
        (lastBig s.neg s.size (bigFilled s) (bigRem s))) := rfl

/-- The accumulator of `decodeU64` with the payload at `IDX` merged in. -/
def mergedU64 (s : State) : Word64 :=
  s.a64 ||| shl64 ((Group.payload (s.memRead s.idx)).setWidth 64) (7 * s.idx)

/-- Everything an iteration of `decodeU64` can do. -/
theorem iterDecodeU64_cases (s : State) :
    (s.len ≤ s.idx ∧ iterDecodeU64 s = .next (s.raise .invalidEncoding)) ∨
    (s.idx < s.len ∧ tooManyGroups s.cfg.policy s.idx = true ∧ iterDecodeU64 s = .next (s.raise .overflow)) ∨
    (s.idx < s.len ∧ tooManyGroups s.cfg.policy s.idx = false ∧
      tenthGroupTooWide s.cfg.policy s.idx (Group.payload (s.memRead s.idx)) = true ∧
      iterDecodeU64 s = .next (s.raise .overflow)) ∨
    (s.idx < s.len ∧ tooManyGroups s.cfg.policy s.idx = false ∧
      tenthGroupTooWide s.cfg.policy s.idx (Group.payload (s.memRead s.idx)) = false ∧
      Group.cont (s.memRead s.idx) = true ∧
      iterDecodeU64 s = .next { s with a64 := mergedU64 s, idx := s.idx + 1 }) ∨
    (s.idx < s.len ∧ tooManyGroups s.cfg.policy s.idx = false ∧
      tenthGroupTooWide s.cfg.policy s.idx (Group.payload (s.memRead s.idx)) = false ∧
      Group.cont (s.memRead s.idx) = false ∧
      iterDecodeU64 s = .next (State.finish { s with a64 := mergedU64 s, val := mergedU64 s })) := by
  by_cases h1 : s.len ≤ s.idx
  · exact .inl ⟨h1, by simp [iterDecodeU64, h1]⟩
  have h1' : s.idx < s.len := by omega
  cases h2 : tooManyGroups s.cfg.policy s.idx
  case true => exact .inr (.inl ⟨h1', rfl, by simp [iterDecodeU64, h1, h2]⟩)
  cases h4 : tenthGroupTooWide s.cfg.policy s.idx (Group.payload (s.memRead s.idx))
  case true => exact .inr (.inr (.inl ⟨h1', rfl, rfl, by simp [iterDecodeU64, h1, h2, h4]⟩))
  cases h5 : Group.cont (s.memRead s.idx)
  · exact .inr (.inr (.inr (.inr ⟨h1', rfl, rfl, rfl, by simp [iterDecodeU64, h1, h2, h4, h5, mergedU64]⟩)))
  · exact .inr (.inr (.inr (.inl ⟨h1', rfl, rfl, rfl, by simp [iterDecodeU64, h1, h2, h4, h5, mergedU64]⟩)))

/-- The accumulator of `decodeBigSigned` with the payload at `IDX` merged in. -/
def mergedBig (s : State) : Nat := s.acc ||| (Group.payload (s.memRead s.idx)).toNat <<< (7 * s.idx)

/-- Sign and magnitude if the group at `IDX` is the last. -/
def endedBig (s : State) : Bool × Nat := bigResult (mergedBig s) s.idx (s.memRead s.idx)

/-- Everything an iteration of `decodeBigSigned` can do. -/
theorem iterDecodeBigSigned_cases (s : State) :
    (s.len ≤ s.idx ∧ iterDecodeBigSigned s = .next (s.raise .invalidEncoding)) ∨
    (s.idx < s.len ∧ Group.cont (s.memRead s.idx) = true ∧
      iterDecodeBigSigned s = .next { s with acc := mergedBig s, idx := s.idx + 1 }) ∨
    (s.idx < s.len ∧ Group.cont (s.memRead s.idx) = false ∧ s.magFits (endedBig s).2 = true ∧
      iterDecodeBigSigned s = .next (State.finish { s with
        acc := mergedBig s, bsign := (endedBig s).1, bmag := (endedBig s).2 })) ∨
    (s.idx < s.len ∧ Group.cont (s.memRead s.idx) = false ∧ s.magFits (endedBig s).2 = false ∧
      iterDecodeBigSigned s = .next (s.raise .capacityExceeded)) := by
  by_cases h1 : s.len ≤ s.idx
  · exact .inl ⟨h1, by simp [iterDecodeBigSigned, h1]⟩
  have h1' : s.idx < s.len := by omega
  cases h5 : Group.cont (s.memRead s.idx)
  case true => exact .inr (.inl ⟨h1', rfl, by simp [iterDecodeBigSigned, h1, h5, mergedBig]⟩)
  cases h6 : s.magFits (endedBig s).2
  · exact .inr (.inr (.inr ⟨h1', rfl, rfl, by
      simp only [endedBig, mergedBig] at h6
      simp [iterDecodeBigSigned, h1, h5, h6]⟩))
  · exact .inr (.inr (.inl ⟨h1', rfl, rfl, by
      have h6' := h6
      simp only [endedBig, mergedBig] at h6'
      simp [iterDecodeBigSigned, h1, h5, h6', endedBig, mergedBig]⟩))

/-- A command's step always answers. -/
theorem exec_next (i : Instr) (s : State) : ∃ t, exec i s = .next t := by
  cases hp : s.phase
  · cases i
    · exact ⟨_, exec_encodeU64_idle hp⟩
    · exact ⟨_, exec_decodeU64_idle hp⟩
    · exact ⟨_, exec_encodeBigSigned_idle hp⟩
    · exact ⟨_, exec_decodeBigSigned_idle hp⟩
  · cases i
    · exact ⟨_, exec_encodeU64_run hp⟩
    · rw [exec_decodeU64_run hp]
      rcases iterDecodeU64_cases s with ⟨_, h⟩ | ⟨_, _, h⟩ | ⟨_, _, _, h⟩ | ⟨_, _, _, _, h⟩ | ⟨_, _, _, _, h⟩ <;>
        exact ⟨_, h⟩
    · exact ⟨_, exec_encodeBigSigned_run hp⟩
    · rw [exec_decodeBigSigned_run hp]
      rcases iterDecodeBigSigned_cases s with ⟨_, h⟩ | ⟨_, _, h⟩ | ⟨_, _, _, h⟩ | ⟨_, _, _, h⟩ <;> exact ⟨_, h⟩

/-! ### The host's accesses -/

/-- Everything a host write can do. -/
theorem hostWrite_cases (w : HostWrite) (s : State) :
    (s.busy = true ∧ hostWrite w s = .next s) ∨ (s.busy = false ∧ hostWrite w s = .next (idleWrite s w)) := by
  cases hb : s.busy <;> simp [hostWrite, hb]

/-- Everything a host read can do. -/
theorem hostRead_cases (r : HostReg) (s : State) :
    (s.busy = true ∧ hostRead r s = .next { s with seen := (r, busyRead s r) :: s.seen, draws := s.draws + 1 }) ∨
    (s.busy = false ∧ hostRead r s = .next { s with seen := (r, idleRead s r) :: s.seen }) := by
  cases hb : s.busy <;> simp [hostRead, hb]

/-! ### One step -/

/-- Everything a step can do: the codec's turn, or one host action. -/
theorem step_cases (s : State) :
    (s.agenda = [] ∧ step s = codecTurn s) ∨
    (∃ rest, s.agenda = .rst :: rest ∧ step s = .next (State.assertReset { s with agenda := rest })) ∨
    (∃ w rest, s.agenda = .write w :: rest ∧ step s = hostWrite w { s with agenda := rest }) ∨
    (∃ c rest, s.agenda = .cmd c :: rest ∧ step s = writeCmd c { s with agenda := rest }) ∨
    (∃ r rest, s.agenda = .read r :: rest ∧ step s = hostRead r { s with agenda := rest }) ∨
    (∃ rest, s.agenda = .wait :: rest ∧ s.done = true ∧ step s = .next { s with agenda := rest }) ∨
    (∃ rest, s.agenda = .wait :: rest ∧ s.done = false ∧ step s = codecTurn s) ∨
    (∃ rest, s.agenda = .pass :: rest ∧ step s = codecTurn { s with agenda := rest }) := by
  have hst : step s = turn s := rfl
  rw [hst, turn]
  rcases h : s.agenda with - | ⟨a, rest⟩
  · exact .inl ⟨rfl, rfl⟩
  cases a with
  | rst => exact .inr (.inl ⟨rest, rfl, rfl⟩)
  | write w => exact .inr (.inr (.inl ⟨w, rest, rfl, rfl⟩))
  | cmd c => exact .inr (.inr (.inr (.inl ⟨c, rest, rfl, rfl⟩)))
  | read r => exact .inr (.inr (.inr (.inr (.inl ⟨r, rest, rfl, rfl⟩))))
  | pass => exact .inr (.inr (.inr (.inr (.inr (.inr (.inr ⟨rest, rfl, rfl⟩))))))
  | wait =>
    refine .inr (.inr (.inr (.inr (.inr ?_))))
    have hs : { s with agenda := .wait :: rest } = s := by rw [← h]
    by_cases hd : s.done = true
    · exact .inl ⟨rest, rfl, hd, if_pos hd⟩
    · refine .inr (.inl ⟨rest, rfl, by simpa using hd, ?_⟩)
      exact (if_neg hd).trans (congrArg codecTurn hs)

/-- Everything the codec's turn can do. -/
theorem codecTurn_cases (s : State) :
    (s.phase = .idle ∧ codecTurn s = .next s) ∨ (s.phase = .run ∧ codecTurn s = exec (decodeCmd s.opr) s) := by
  unfold codecTurn
  cases h : s.phase <;> simp

/-- Everything a write of `CMD` can do. -/
theorem writeCmd_cases (c : CmdCode) (s : State) :
    (s.phase = .idle ∧ writeCmd c s = exec (decodeCmd c) s) ∨ (s.phase = .run ∧ writeCmd c s = .next s) := by
  unfold writeCmd
  cases h : s.phase <;> simp

/-! ### Runs -/

theorem steps_succ_next {k : Nat} {s t : State} (h : step s = .next t) : steps (k + 1) s = steps k t := by
  simp [steps, h]

/-- A run in two parts. -/
theorem steps_add {j k : Nat} {s t : State} (h : steps j s = .next t) : steps (j + k) s = steps k t := by
  induction j generalizing s with
  | zero =>
    cases h
    rw [Nat.zero_add]
  | succ j ih =>
    rw [Nat.add_right_comm]
    simp only [steps] at h ⊢
    split at h
    · exact ih h
    · cases h
    · cases h

/-- One more step of the host interface's run. -/
theorem run_succ (M : Host.Core) (k : Nat) (s : M.State) :
    (∀ t, M.step s = .next t → M.run (k + 1) s = M.run k t) ∧
    (∀ f, M.step s = .fault f → M.run (k + 1) s = .fault f) ∧
    (∀ r, M.step s = .refused r → M.run (k + 1) s = .refused r) := by
  refine ⟨fun t h => ?_, fun f h => ?_, fun r h => ?_⟩ <;> simp [Host.Core.run, h]

/-- `steps` is the host interface's run. -/
theorem steps_eq_run : ∀ (k : Nat) (s : State), steps k s = Host.Core.run Sys2Proof.core k s
  | 0, _ => rfl
  | k + 1, s => by
    have hr := run_succ Sys2Proof.core k s
    cases h : step s with
    | next t => exact (steps_succ_next h).trans ((steps_eq_run k t).trans (hr.1 t h).symm)
    | fault f => exact (show steps (k + 1) s = .fault f by simp [steps, h]).trans (hr.2.1 f h).symm
    | refused r => exact (show steps (k + 1) s = .refused r by simp [steps, h]).trans (hr.2.2 r h).symm

end Sys2Proof.Machine
end

