-- ==== Sys2Proof/Laws/Helpers.lean ====
section
/-! SUPPORT. The helper units and the group byte in arithmetic: one fact per unit, from which later proofs work
without unfolding it. -/

namespace Sys2Proof.Machine

/-! ### Sizes -/

/-- `bitlen` is the least number of bits that hold `m`. -/
theorem bitlen_le_iff (m k : Nat) : bitlen m ≤ k ↔ m < 2 ^ k := by
  unfold bitlen
  split
  · subst_vars
    simp
  · rename_i hm
    rw [Nat.succ_le_iff, Nat.log2_lt hm]

theorem lt_two_pow_bitlen (m : Nat) : m < 2 ^ bitlen m := (bitlen_le_iff m _).1 le_rfl

theorem bitlen_pos {m : Nat} (h : 0 < m) : 0 < bitlen m := by
  by_contra hb
  have := (bitlen_le_iff m 0).1 (by omega)
  simp at this
  omega

theorem two_pow_le_of_bitlen {m : Nat} (h : 0 < m) : 2 ^ (bitlen m - 1) ≤ m := by
  by_contra hb
  have h1 := (bitlen_le_iff m (bitlen m - 1)).2 (by omega)
  have h2 := bitlen_pos h
  omega

/-! ### Setting bits -/

theorem testBit_setbits (m lo k j : Nat) :
    (setbits m lo k).testBit j = (m.testBit j || decide (lo ≤ j ∧ j < lo + k)) := by
  induction k with
  | zero =>
    simp [setbits]
  | succ k ih =>
    rw [setbits, setbit, Nat.testBit_or, ih, Nat.testBit_two_pow, Bool.or_assoc, ← Bool.decide_or]
    congr 1
    rw [decide_eq_decide]
    omega

/-! ### Bytes of a natural -/

theorem bytesBE_length (m k : Nat) : (bytesBE m k).length = k := by
  induction k with
  | zero => rfl
  | succ k ih => simp [bytesBE, ih]

theorem foldl_bytes (bs : List Byte) (a : Nat) :
    bs.foldl (fun acc b => 256 * acc + b.toNat) a = a * 256 ^ bs.length + fromBytesBE bs := by
  induction bs generalizing a with
  | nil => simp [fromBytesBE]
  | cons b bs ih =>
    rw [fromBytesBE, List.foldl_cons, List.foldl_cons, ih, ih (256 * 0 + b.toNat), List.length_cons, pow_succ]
    ring

theorem fromBytesBE_cons (b : Byte) (bs : List Byte) :
    fromBytesBE (b :: bs) = b.toNat * 256 ^ bs.length + fromBytesBE bs := by
  rw [fromBytesBE, List.foldl_cons, foldl_bytes]
  simp

/-- Import of the low `k` bytes. -/
theorem fromBytesBE_bytesBE (m k : Nat) : fromBytesBE (bytesBE m k) = m % 256 ^ k := by
  induction k with
  | zero => simp [bytesBE, fromBytesBE, Nat.mod_one]
  | succ k ih =>
    have e : m % (256 ^ k * 256) = m % 256 ^ k + 256 ^ k * (m / 256 ^ k % 256) := Nat.mod_mul
    have hb : (BitVec.ofNat 8 (m / 256 ^ k)).toNat = m / 256 ^ k % 256 := BitVec.toNat_ofNat _ _
    rw [bytesBE, fromBytesBE_cons, bytesBE_length, ih, hb, pow_succ, e]
    ring

/-- Import of the low `k` bytes, each inverted. -/
theorem fromBytesBE_flipped (m k : Nat) :
    fromBytesBE ((bytesBE m k).map (fun b => ~~~b)) + m % 256 ^ k + 1 = 256 ^ k := by
  induction k with
  | zero => simp [bytesBE, fromBytesBE, Nat.mod_one]
  | succ k ih =>
    have hq : m / 256 ^ k % 256 < 256 := Nat.mod_lt _ (by norm_num)
    have e : m % (256 ^ k * 256) = m % 256 ^ k + 256 ^ k * (m / 256 ^ k % 256) := Nat.mod_mul
    have hb : (~~~ BitVec.ofNat 8 (m / 256 ^ k)).toNat = 255 - m / 256 ^ k % 256 := by
      rw [BitVec.toNat_not, BitVec.toNat_ofNat]
    rw [bytesBE, List.map_cons, fromBytesBE_cons, List.length_map, bytesBE_length, hb, pow_succ, e]
    obtain ⟨d, hd⟩ : ∃ d, 255 = m / 256 ^ k % 256 + d := ⟨255 - m / 256 ^ k % 256, by omega⟩
    have : 255 - m / 256 ^ k % 256 = d := by omega
    have h2 : 256 ^ k * 255 = 256 ^ k * (m / 256 ^ k % 256) + 256 ^ k * d := by
      rw [← mul_add, ← hd]
    rw [this]
    linarith

/-! ### The group byte -/

theorem Group.payload_toNat (b : Byte) : (Group.payload b).toNat = b.toNat % 128 := by
  simp [Group.payload, BitVec.extractLsb'_toNat]

theorem Group.cont_eq (b : Byte) : Group.cont b = decide (128 ≤ b.toNat) := by
  have hb : b.toNat < 256 := b.isLt
  rw [Group.cont, ← BitVec.testBit_toNat, Nat.testBit_eq_decide_div_mod_eq, decide_eq_decide]
  omega

theorem Group.sign_eq (b : Byte) : Group.sign b = decide (64 ≤ b.toNat % 128) := by
  rw [Group.sign, ← BitVec.testBit_toNat, Nat.testBit_eq_decide_div_mod_eq, decide_eq_decide]
  omega

/-- A byte made from a payload, in arithmetic. -/
theorem Group.byte_eq (p : Payload) (more : Bool) :
    Group.byte p more = BitVec.ofNat 8 (p.toNat + if more then 128 else 0) := by
  revert p more
  decide

end Sys2Proof.Machine
end

