-- ==== Sys2Proof/Tests/Slice0.lean ====
section
/-! SUPPORT. Tests: ill-formed terms, command words written out from the spec's table, single steps against the
worked examples of the spec, and for each statement a witness that meets its hypotheses. -/

namespace Sys2Proof.Tests

open Sys2Proof Sys2Proof.Machine

/-! ### Small states -/

/-- A block at rest with the default parameters, every register 0 and nothing in the buffer. -/
def blank : State where
  cfg := Config.default
  phase := .idle
  done := false
  err := .none
  opr := 0
  val := 0
  bsign := false
  bmag := 0
  len := 0
  buf := []
  idx := 0
  n := 0
  a64 := 0
  w := 0
  size := 0
  neg := false
  acc := 0
  epoch := 0
  draws := 0
  agenda := []
  seen := []

/-- The block while the command `i` runs, about to handle group `idx`. -/
def running (i : Instr) (idx : Nat) : State := { blank with phase := .run, opr := encode i, idx := idx }

/-- A buffer that holds `l` from cell 0 up. -/
def cells (l : List Byte) : Memory := l.zipIdx.map (fun p => (p.2, p.1))

/-- `s` with the bytes `l` in its buffer and `LEN` their number. -/
def holding (l : List Byte) (s : State) : State := { s with buf := cells l, len := l.length }

/-- A finite block: `MAGBITS = 16`, `BUFCAP = 10`, policy `fault`. -/
def small : Config := ⟨.bounded 16, .bounded 10, .fault⟩

/-- A property of the next state, false where there is none. -/
def next (o : Host.Outcome State Fault Refusal) (p : State → Bool) : Bool :=
  match o with
  | .next t => p t
  | _ => false

/-! ### WellFormed refuses ill-formed terms (R7, R71, R76) -/

theorem test_magbits_zero_refused : (⟨.bounded 0, .bounded 10, .fault⟩ : Config).magbitsOk = false := by decide
theorem test_bufcap_nine_refused : (⟨.bounded 1, .bounded 9, .fault⟩ : Config).bufcapOk = false := by decide
theorem test_bufcap_below_longest_refused :
    (⟨.bounded 70, .bounded 10, .fault⟩ : Config).encoderFits = false := by decide
theorem test_bounded_bufcap_unbounded_magbits_refused :
    (⟨.unbounded, .bounded 10, .fault⟩ : Config).encoderFits = false := by decide
theorem test_whole_check_refuses : (⟨.bounded 70, .bounded 10, .truncate⟩ : Config).wellFormed = false := by decide
theorem test_longest_that_fits : (⟨.bounded 69, .bounded 10, .truncate⟩ : Config).wellFormed = true := by decide
theorem test_empty_incomplete : completeEncoding [] = false := by decide
theorem test_unterminated_incomplete : completeEncoding [0x80#8] = false := by decide
theorem test_early_end_incomplete : completeEncoding [0x7F#8, 0x00#8] = false := by decide
theorem test_every_instruction_well_formed : ∀ i ∈ [Instr.encodeU64, .decodeU64, .encodeBigSigned, .decodeBigSigned],
    i.wellFormed = true := by decide

/-! ### Decoding: bit 1 `kind`, bit 0 `dir` (R76) -/

theorem test_decode_encodeU64 : decodeTableWord 8 0b00 = some .encodeU64 := by decide
theorem test_decode_decodeU64 : decodeTableWord 8 0b01 = some .decodeU64 := by decide
theorem test_decode_encodeBigSigned : decodeTableWord 8 0b10 = some .encodeBigSigned := by decide
theorem test_decode_decodeBigSigned : decodeTableWord 8 0b11 = some .decodeBigSigned := by decide
theorem test_decode_third_bit_refused : decodeTableWord 8 0b100 = none := by decide
theorem test_decode_no_bytes : decodeBytes [] = .error .noBytes := by decide
theorem test_program_line_cmd : (HostAction.cmd (encode .decodeBigSigned)).encoding =
    some ⟨0, none, 3⟩ := by decide
theorem test_program_line_wrb : (HostAction.write (.buf 4 0x07#8)).encoding =
    some ⟨6, some 4, 7⟩ := by decide
/-- 95_test_vectors.md section 7, P3: the writes of its first lines, `6[0] <- 0x80` and `6[1] <- 0x80` among them. -/
theorem test_program_P3 :
    programEncoding [.rst, .write (.val 43690#64), .write (.buf 0 0x80#8), .write (.buf 1 0x80#8), .write (.len 2),
      .cmd (encode .decodeU64), .wait, .read .status] =
    [⟨2, none, 0xAAAA⟩, ⟨6, some 0, 0x80⟩, ⟨6, some 1, 0x80⟩, ⟨5, none, 2⟩, ⟨0, none, 1⟩] := by decide

/-! ### One step of each command, against the worked examples -/

/-- R96, the fourth step: `N = 0x3FD`, byte `0xFD`, `N = 7`. -/
theorem test_encodeU64_middle_group :
    next (exec .encodeU64 { running .encodeU64 3 with n := 0x3FD })
      (fun t => t.buf = [(3, 0xFD#8)] && t.n = 7 && t.idx = 4 && t.status = 1) = true := by decide
/-- 95_test_vectors.md section 2, `2^64 - 1`: the tenth byte is `0x01`, `LEN = 10`, `STATUS` ends as 2. -/
theorem test_encodeU64_tenth_group :
    next (exec .encodeU64 { running .encodeU64 9 with n := 1 })
      (fun t => t.buf = [(9, 0x01#8)] && t.len = 10 && t.status = 2) = true := by decide
/-- R110, the last step: `VAL = 0x7FA00000`. -/
theorem test_decodeU64_last_group :
    next (exec .decodeU64 (holding [0x80#8, 0x80#8, 0x80#8, 0xFD#8, 0x07#8]
        { running .decodeU64 4 with a64 := 0x0FA00000#64 }))
      (fun t => t.val = 2141192192#64 && t.status = 2) = true := by decide
/-- R109: nine `0xFF` then `0x02` overflows at group 9 and keeps `VAL`. -/
theorem test_decodeU64_overflow :
    next (exec .decodeU64 { running .decodeU64 9 with buf := [(9, 0x02#8)], len := 10, val := 5 })
      (fun t => t.val = 5 && t.status = 10) = true := by decide
/-- 95_test_vectors.md section 4, the trace of -65, step 0: byte `0xBF`, `w1 = 0x7F`, not the last. -/
theorem test_encodeBigSigned_sign_bit_not_yet :
    next (exec .encodeBigSigned { running .encodeBigSigned 0 with w := 0xBF, size := 7, neg := true })
      (fun t => t.buf = [(0, 0xBF#8)] && t.w = 0x7F && t.status = 1) = true := by decide
/-- R127, step 2 of -624485: `w1 = 0xFFFFF`, byte `0x59`, the last. -/
theorem test_encodeBigSigned_last_group :
    next (exec .encodeBigSigned { running .encodeBigSigned 2 with w := 0xFFFD9, size := 20, neg := true })
      (fun t => t.buf = [(2, 0x59#8)] && t.w = 0xFFFFF && t.len = 3 && t.status = 2) = true := by decide
/-- R145, the last step: `BSIGN = 1`, `BMAG = 624485`. -/
theorem test_decodeBigSigned_last_group :
    next (exec .decodeBigSigned (holding [0x9B#8, 0xF1#8, 0x59#8] { running .decodeBigSigned 2 with acc := 0x389B }))
      (fun t => t.bsign && t.bmag = 624485 && t.status = 2) = true := by decide
/-- R144: `[0x80, 0x80, 0x40]` with `MAGBITS = 16` is `CapacityExceeded`, `BIG` unchanged. -/
theorem test_decodeBigSigned_capacity :
    next (exec .decodeBigSigned (holding [0x80#8, 0x80#8, 0x40#8] { running .decodeBigSigned 2 with cfg := small, bmag := 9 }))
      (fun t => !t.bsign && t.bmag = 9 && t.status = 14) = true := by decide
/-- R127, the start of -624485: `SIZE = 20`, `NEG = 1`, `W = 0xF6789B`. -/
theorem test_encodeBigSigned_start :
    next (exec .encodeBigSigned { blank with bsign := true, bmag := 624485 })
      (fun t => t.size = 20 && t.neg && t.w = 0xF6789B) = true := by decide

/-- R57, R58: a host write to an index that no cell has changes nothing, and the next step is there. -/
theorem test_write_above_bufcap :
    let s := { blank with cfg := small, buf := [(9, 0x07#8)] }
    next (step { s with agenda := [.write (.buf 10 0x55#8)] }) (· = s) = true := by decide
/-- R37, R58: while `BUSY = 1` an unknown register number reads 0, and the command goes on. -/
theorem test_busy_read_unknown :
    next (step { running .encodeU64 3 with agenda := [.read (.other 2)] })
      (fun t => t.seen = [(.other 2, 0)] && t.status = 1) = true := by decide

/-! ### The helpers' spot values -/

/-- 95_test_vectors.md section 3, barrel shifter. -/
theorem test_shl64_spots : shl64 0x7D#64 21 = 0x0FA00000#64 ∧ shl64 0x7F#64 63 = 0x8000000000000000#64 ∧
    shl64 0x02#64 63 = 0 ∧ shl64 0x01#64 70 = 0 := by decide
/-- R159: not an involution. -/
theorem test_twosComplement_spots : twosComplement 0xFF01 = 0xFF ∧ twosComplement 0xFF = 1 := by decide

/-! ### Witnesses: states that meet the hypotheses of the statements -/

/-- The block in the middle of `encodeU64` of 300, after one group. -/
def midEncodeU64 : State := { running .encodeU64 1 with val := 300, n := 2, buf := [(0, 0xAC#8)] }

/-- The block in the middle of `decodeBigSigned` of `[0x80, 0x01]`, with a negative zero in `BIG`. -/
def midDecodeBig : State := { holding [0x80#8, 0x01#8] (running .decodeBigSigned 0) with bsign := true }

theorem wit_inv_midEncodeU64 : Inv midEncodeU64 where
  cfgOk := by decide
  bufWf := by decide
  bufCells := by decide
  lenOk := by decide
  bmagOk := by decide
  idxOk := by decide
  statusOk := ⟨fun _ => rfl, fun h => absurd rfl h⟩
  running := fun _ => (by decide : midEncodeU64.n.toNat = midEncodeU64.val.toNat / 2 ^ (7 * midEncodeU64.idx) ∧ midEncodeU64.idx ≤ 9)

theorem wit_inv_midDecodeBig : Inv midDecodeBig where
  cfgOk := by decide
  bufWf := by decide
  bufCells := by decide
  lenOk := by decide
  bmagOk := by decide
  idxOk := by decide
  statusOk := ⟨fun _ => rfl, fun h => absurd rfl h⟩
  running := fun _ => (⟨⟨Nat.zero_le _, fun j hj => absurd hj (Nat.not_lt_zero j)⟩, rfl⟩ : decodingBig midDecodeBig)

theorem wit_CommandTable : ∀ i ∈ [Instr.encodeU64, .decodeBigSigned], i.wellFormed = true := by decide
theorem wit_CommandWordsAreTwoBits : 4 ≤ (0x04#8).toNat := by decide
theorem wit_RegisterNumbersNameRegisters : (∀ j, HostReg.buf 3 = .buf j → j = 3) ∧ 6 < 7 :=
  ⟨fun _ h => (HostReg.buf.inj h).symm, by decide⟩
theorem wit_ProgramEncoding : HostAction.encoding (.write (.buf 3 5)) = HostAction.encoding (.write (.buf 3 5)) ∧
    HostAction.encoding (.write (.buf 3 5)) ≠ none := by decide
theorem wit_CmdWriteRunsDecodedInstr :
    (blank.issue .decodeU64).phase = .idle ∧ (blank.issue .decodeU64).agenda = .cmd 0b01#2 :: [] := by decide
theorem wit_RunningStepRunsLatchedInstr :
    midEncodeU64.phase = .run ∧ midEncodeU64.agenda = [] ∧ midEncodeU64.done = false ∧
    ({ midEncodeU64 with agenda := [.pass] } : State).agenda = .pass :: [] ∧
    ({ midEncodeU64 with agenda := [.wait, .rst] } : State).agenda = .wait :: [.rst] := by decide
theorem wit_IdleCodecTakesNoStep :
    blank.phase = .idle ∧ blank.agenda = [] ∧ blank.done = false ∧
    ({ blank with agenda := [.wait], done := true } : State).done = true := by decide
/-- A line that is performed, and a `WAIT` that stays first. -/
theorem wit_HostActsInOrder :
    (∃ t, step { blank with agenda := [.read .len, .rst] } = .next t) ∧
    (∃ t, step { blank with agenda := [.wait] } = .next t) ∧ blank.done = false := ⟨⟨_, rfl⟩, ⟨_, rfl⟩, rfl⟩
theorem wit_idle_statements : blank.phase = .idle ∧ blank.cfg.wellFormed = true ∧ blank.magFits blank.bmag = true := by
  decide
theorem wit_EncodeU64Iteration :
    ({ running .encodeU64 9 with cfg := small } : State).hasCell 9 = true ∧
    (127#64).toNat / 128 = 0 ∧ (128#64).toNat / 128 ≠ 0 := by decide
theorem wit_DecodeU64Iteration_bound : (running .decodeU64 0).len ≤ (running .decodeU64 0).idx := by decide
theorem wit_DecodeU64Iteration_eleventh :
    let s := { running .decodeU64 10 with len := 11 }
    s.phase = .run ∧ s.idx < s.len ∧ s.cfg.policy = .fault ∧ 10 ≤ s.idx := by decide
theorem wit_DecodeU64Iteration_tenth_wide :
    let s := { running .decodeU64 9 with len := 10, cfg := small, buf := [(9, 0x82#8)] }
    s.phase = .run ∧ s.idx < s.len ∧ s.hasCell s.idx = true ∧ s.cfg.policy = .fault ∧ s.idx = 9 ∧
      2 ≤ (s.memRead s.idx).toNat % 128 := by decide
theorem wit_DecodeU64Iteration_tenth_continues :
    let s := { running .decodeU64 9 with len := 10, cfg := small, buf := [(9, 0x81#8)] }
    s.phase = .run ∧ s.idx < s.len ∧ s.hasCell s.idx = true ∧ s.idx ≤ 9 ∧ (s.memRead s.idx).toNat % 128 < 2 ∧
      128 ≤ (s.memRead s.idx).toNat := by decide
theorem wit_DecodeU64Iteration_truncate_ends :
    let s := { running .decodeU64 10 with len := 11, cfg := ⟨.unbounded, .unbounded, .truncate⟩, buf := [(10, 0x7F#8)] }
    s.phase = .run ∧ s.idx < s.len ∧ s.hasCell s.idx = true ∧ s.cfg.policy ≠ .fault ∧
      (s.memRead s.idx).toNat < 128 := by decide
theorem wit_EncodeBigSignedIteration_ends :
    let s := { running .encodeBigSigned 0 with w := 0xC0, size := 7, neg := true }
    s.phase = .run ∧ s.hasCell s.idx = true ∧ s.neg = true ∧ 64 ≤ s.w % 128 ∧
      (s.w / 128 ||| 127 * 2 ^ (max s.size 7 - 7)) % 2 ^ s.size = 2 ^ s.size - 1 := by decide
theorem wit_EncodeBigSignedIteration_goes_on :
    let s := { running .encodeBigSigned 0 with w := 64, size := 7 }
    s.phase = .run ∧ s.hasCell s.idx = true ∧ s.neg = false ∧ s.w / 128 = 0 ∧ ¬ s.w % 128 < 64 := by decide
theorem wit_DecodeBigSignedIteration_goes_on :
    midDecodeBig.phase = .run ∧ midDecodeBig.idx < midDecodeBig.len ∧ midDecodeBig.hasCell midDecodeBig.idx = true ∧
      128 ≤ (midDecodeBig.memRead midDecodeBig.idx).toNat := by decide
/-- `MAGBITS = 16`: a magnitude of `2^16 - 1` fits, one of `2^16` does not; both from a terminating group. -/
theorem wit_DecodeBigSignedIteration_ends :
    let s := { running .decodeBigSigned 2 with cfg := small, len := 3, acc := 0x3FFF, buf := [(2, 0x03#8)] }
    s.phase = .run ∧ s.idx < s.len ∧ s.hasCell s.idx = true ∧ (s.memRead s.idx).toNat < 128 ∧
      s.cfg.magbits.admits (bitlen (s.acc ||| 0x03 * 2 ^ 14)) = true ∧
      s.cfg.magbits.admits (bitlen (s.acc ||| 0x04 * 2 ^ 14)) = false := by decide
theorem wit_EncoderStepFrame : ∃ t, exec .encodeU64 midEncodeU64 = .next t ∧ t.phase = .idle := ⟨_, rfl, rfl⟩
theorem wit_EncoderStepFrame_goes_on :
    ∃ t, exec .encodeBigSigned { running .encodeBigSigned 0 with w := 64, size := 7 } = .next t ∧ t.phase = .run :=
  ⟨_, rfl, rfl⟩
theorem wit_DecoderStepFrame : ∃ t, exec .decodeBigSigned midDecodeBig = .next t ∧ t.phase = .run := ⟨_, rfl, rfl⟩
theorem wit_EncodersRaiseNoFault : (∃ t, exec .encodeU64 blank = .next t) ∧ blank.phase = .idle ∧
    (∃ t, exec .encodeU64 midEncodeU64 = .next t) ∧ midEncodeU64.err = .none := ⟨⟨_, rfl⟩, rfl, ⟨_, rfl⟩, rfl⟩
theorem wit_fault_invalid : ∃ t, exec .decodeU64 (running .decodeU64 0) = .next t ∧
    (running .decodeU64 0).err = .none ∧ t.err = .invalidEncoding := ⟨_, rfl, rfl, rfl⟩
theorem wit_fault_overflow : ∃ t, exec .decodeU64 { running .decodeU64 10 with len := 11 } = .next t ∧
    t.err = .overflow := ⟨_, rfl, rfl⟩
theorem wit_fault_capacity : ∃ t, exec .decodeBigSigned
    (holding [0x80#8, 0x80#8, 0x40#8] { running .decodeBigSigned 2 with cfg := small }) = .next t ∧
    t.err = .capacityExceeded := ⟨_, rfl, rfl⟩
theorem wit_StatusConsistencyKept : blank.statusOk ∧ ∃ t, step blank = .next t :=
  ⟨⟨fun h => (by cases h), fun h => absurd rfl h⟩, _, rfl⟩
/-- A block of ten cells in mid-command at the index that no cell has. -/
theorem wit_AbsentCellAccess :
    let s := { running .encodeU64 10 with cfg := small, buf := [(9, 0x80#8)] }
    s.phase = .run ∧ s.hasCell s.idx = false ∧ (∀ c ∈ s.buf, s.hasCell c.1 = true) ∧ s.n.toNat / 128 = 0 := by decide
/-- The limits of a small block: cells 0 to 9, `LEN` up to 10, magnitudes below `2^16`. -/
theorem wit_host_accesses :
    let s := { blank with cfg := small }
    s.phase = .idle ∧ s.hasCell 9 = true ∧ s.hasCell 10 = false ∧ s.cfg.bufcap.admits 10 = true ∧
      s.cfg.bufcap.admits 11 = false ∧ s.magFits 65535 = true ∧ s.magFits 65536 = false := by decide
theorem wit_BusyHostAccesses : midEncodeU64.phase = .run := rfl
theorem wit_ResetTakesResetValues : ({ midEncodeU64 with agenda := [.rst] } : State).agenda = .rst :: [] := by decide
theorem wit_StepKeepsInvariant : Inv midEncodeU64 ∧ ∃ t, step midEncodeU64 = .next t := ⟨wit_inv_midEncodeU64, _, rfl⟩
theorem wit_ResetMeetsInvariant : small.wellFormed = true ∧ Config.default.wellFormed = true := by decide
theorem wit_CodecAccessesExistingCells : Inv midEncodeU64 ∧ midEncodeU64.phase = .run ∧
    decodeCmd midEncodeU64.opr = .encodeU64 := ⟨wit_inv_midEncodeU64, rfl, rfl⟩
theorem wit_CodecAccessesExistingCells_decoder : Inv midDecodeBig ∧ midDecodeBig.phase = .run ∧
    midDecodeBig.idx < midDecodeBig.len := ⟨wit_inv_midDecodeBig, rfl, by decide⟩
theorem wit_CommandEndsWithinBound : Inv midEncodeU64 ∧ midEncodeU64.phase = .run ∧ midEncodeU64.agenda = [] :=
  ⟨wit_inv_midEncodeU64, rfl, rfl⟩
theorem wit_NoNegativeZeroProduced : Inv midDecodeBig ∧ midDecodeBig.phase = .run ∧
    decodeCmd midDecodeBig.opr = .decodeBigSigned ∧
    ∃ t, exec .decodeBigSigned midDecodeBig = .next t ∧ t.bsign = true ∧ t.bmag = 0 :=
  ⟨wit_inv_midDecodeBig, rfl, rfl, _, rfl, rfl, rfl⟩

/-- A buffer of nine bytes `0x80`, then `l`. -/
def nine80 (l : List Byte) : State := holding (List.replicate 9 0x80#8 ++ l) blank

theorem wit_DecodeU64ClosedFormFault_ends :
    let s := holding [0x80#8, 0x80#8, 0x80#8, 0x80#8, 0x80#8, 0x80#8, 0x80#8, 0x80#8, 0x01#8] blank
    s.phase = .idle ∧ s.cfg.policy = .fault ∧ s.cfg.bufcap.admits s.len = true ∧
      leadingConts s.memRead s.len = 8 ∧ 8 < s.len := by decide
theorem wit_DecodeU64ClosedFormFault_unterminated :
    let s := nine80 []
    leadingConts s.memRead s.len = s.len ∧ s.len = 9 := by decide
theorem wit_DecodeU64ClosedFormFault_tenth :
    (let s := nine80 [0x02#8]; 9 ≤ leadingConts s.memRead s.len ∧ s.len = 10 ∧ 2 ≤ (s.memRead 9).toNat % 128) ∧
    (let s := nine80 [0x01#8]; leadingConts s.memRead s.len = 9 ∧ s.len = 10 ∧ (s.memRead 9).toNat % 128 < 2) ∧
    (let s := nine80 [0x81#8]; leadingConts s.memRead s.len = 10 ∧ s.len = 10 ∧ (s.memRead 9).toNat % 128 < 2) ∧
    (let s := nine80 [0x80#8, 0x00#8]; leadingConts s.memRead s.len = 10 ∧ s.len = 11 ∧
      (s.memRead 9).toNat % 128 < 2) := by decide
theorem wit_DecodeU64ClosedFormTruncate :
    (let s := { nine80 [0x80#8, 0x00#8] with cfg := ⟨.unbounded, .unbounded, .truncate⟩ };
      s.phase = .idle ∧ s.cfg.policy = .truncate ∧ s.cfg.bufcap.admits s.len = true ∧
        leadingConts s.memRead s.len < s.len) ∧
    (let s := { nine80 [0x80#8] with cfg := ⟨.unbounded, .unbounded, .truncate⟩ };
      leadingConts s.memRead s.len = s.len) := by decide
/-- No terminating group; a magnitude that fits `MAGBITS = 16` exactly; one that does not. -/
theorem wit_DecodeBigSignedClosedForm :
    (let s := holding [0x80#8] { blank with cfg := small };
      s.phase = .idle ∧ s.cfg.bufcap.admits s.len = true ∧ leadingConts s.memRead s.len = s.len) ∧
    (let s := holding [0xFF#8, 0xFF#8, 0x03#8] { blank with cfg := small };
      leadingConts s.memRead s.len = 2 ∧ Group.sign (s.memRead 2) = false ∧ s.magFits (groupSum s.memRead 3) = true) ∧
    (let s := holding [0x80#8, 0x80#8, 0x40#8] { blank with cfg := small };
      leadingConts s.memRead s.len = 2 ∧ Group.sign (s.memRead 2) = true ∧
        s.magFits (2 ^ 21 - groupSum s.memRead 3) = false) := by decide
/-- -65 needs two groups. -/
theorem wit_EncodeBigSignedClosedForm :
    let s := { blank with bsign := true, bmag := 65 }
    s.phase = .idle ∧ s.cfg.wellFormed = true ∧ s.magFits s.bmag = true ∧ leastGroups s.big 2 := by
  refine ⟨rfl, rfl, rfl, by decide, ⟨by decide, by decide⟩, fun j h1 h2 h3 => ?_⟩
  obtain rfl : j = 1 := by omega
  exact absurd h3.1 (by decide)
theorem wit_WorkingRegistersUnobservable :
    blank.phase = .idle ∧ blank.withoutWork = { blank with n := 5, acc := 7, neg := true }.withoutWork := by decide
theorem wit_DecoderReadsNoFurther :
    let s := holding [0xFF#8, 0x01#8] blank
    let s' := { s with buf := cells [0xFF#8, 0x01#8, 0x55#8], len := 3 }
    s.phase = .idle ∧ 1 < s.len ∧ 1 < s'.len ∧ s'.memRead 0 = s.memRead 0 ∧ s'.memRead 1 = s.memRead 1 ∧
      Group.cont (s.memRead 0) = true ∧ Group.cont (s.memRead 1) = false := by decide
theorem wit_NegativeResultMagnitude : 1 ≤ 1 ∧ 2 ^ (7 * 1 - 1) ≤ 64 ∧ 64 < 2 ^ (7 * 1) := by decide
theorem wit_ByteLengthIndependence :
    let s := { blank with bsign := true, bmag := 1 }
    s.phase = .idle ∧ s.cfg.wellFormed = true ∧ s.magFits s.bmag = true ∧ s.bigNeg = true ∧ bytelen s.bmag ≤ 2 := by decide
theorem wit_helper_units : 0 < 0xFF01 ∧ toBytesBE 0xFF01 = [0xFF#8, 0x01#8] ∧ 7 ≤ 8 * bytelen 1 ∧ 64 < 2 ^ 7 := by decide

end Sys2Proof.Tests
end

section
/-! PROOFS. A command's step commutes with a change of the host beside it (R8, R177): first each shared
operation, then each start and iteration step, then `exec`. -/

namespace Sys2Proof.Machine

section

variable (s : State) (g : List HostAction) (h : List (HostReg × Nat)) (d : Nat)

@[simp] theorem mapNext_next (f : State → State) (t : State) : mapNext f (.next t) = .next (f t) := rfl

/-! ### The shared operations -/

theorem raise_withHost (f : ErrCode) : (s.withHost g h d).raise f = (s.raise f).withHost g h d := rfl

theorem append_withHost (b : Byte) (last : Bool) :
    (s.withHost g h d).append b last = (s.append b last).withHost g h d := by
  cases last
  case false => rfl
  case true => rfl

/-! ### The start steps -/

theorem startEncodeU64_withHost : startEncodeU64 (s.withHost g h d) = (startEncodeU64 s).withHost g h d := rfl

theorem startDecodeU64_withHost : startDecodeU64 (s.withHost g h d) = (startDecodeU64 s).withHost g h d := rfl

theorem startEncodeBigSigned_withHost :
    startEncodeBigSigned (s.withHost g h d) = (startEncodeBigSigned s).withHost g h d := rfl

theorem startDecodeBigSigned_withHost :
    startDecodeBigSigned (s.withHost g h d) = (startDecodeBigSigned s).withHost g h d := rfl

/-! ### The iteration steps -/

/-- An encoder's step is one `State.append`, whose arguments are registers of the block. -/
theorem iterEncodeU64_withHost :
    iterEncodeU64 (s.withHost g h d) = mapNext (fun t => t.withHost g h d) (iterEncodeU64 s) := by
  rw [iterEncodeU64_next, iterEncodeU64_next, mapNext_next, ← append_withHost]
  rfl

theorem iterEncodeBigSigned_withHost :
    iterEncodeBigSigned (s.withHost g h d) = mapNext (fun t => t.withHost g h d) (iterEncodeBigSigned s) := by
  rw [iterEncodeBigSigned_next, iterEncodeBigSigned_next, mapNext_next, ← append_withHost]
  rfl

/-- The checks of R102 look at `LEN`, `IDX`, the policy and the cell at `IDX`, which the change of host keeps, so
both sides take the same branch. -/
theorem iterDecodeU64_withHost :
    iterDecodeU64 (s.withHost g h d) = mapNext (fun t => t.withHost g h d) (iterDecodeU64 s) := by
  rcases iterDecodeU64_cases s with ⟨hlen, hs⟩ | ⟨hlen, hmany, hs⟩ | ⟨hlen, hmany, hwide, hs⟩ |
    ⟨hlen, hmany, hwide, hcont, hs⟩ | ⟨hlen, hmany, hwide, hcont, hs⟩
  · rw [hs]
    simp [iterDecodeU64, hlen, raise_withHost]
  · rw [hs]
    simp [iterDecodeU64, hlen.not_ge, hmany, raise_withHost]
  · rw [hs]
    simp [iterDecodeU64, hlen.not_ge, hmany, hwide, raise_withHost]
  · rw [hs]
    simp only [iterDecodeU64, State.withHost_len, State.withHost_idx, State.withHost_cfg, State.withHost_memRead,
      hlen.not_ge, hmany, hwide, hcont, ↓reduceIte, Bool.false_eq_true]
    rfl
  · rw [hs]
    simp only [iterDecodeU64, State.withHost_len, State.withHost_idx, State.withHost_cfg, State.withHost_memRead,
      hlen.not_ge, hmany, hwide, hcont, ↓reduceIte, Bool.false_eq_true]
    rfl

/-- The tests of R137 look at `LEN`, `IDX`, the cell at `IDX`, `ACC` and `MAGBITS`. -/
theorem iterDecodeBigSigned_withHost :
    iterDecodeBigSigned (s.withHost g h d) = mapNext (fun t => t.withHost g h d) (iterDecodeBigSigned s) := by
  rcases iterDecodeBigSigned_cases s with ⟨hlen, hs⟩ | ⟨hlen, hcont, hs⟩ | ⟨hlen, hcont, hfits, hs⟩ |
    ⟨hlen, hcont, hfits, hs⟩
  · rw [hs]
    simp [iterDecodeBigSigned, hlen, raise_withHost]
  · rw [hs]
    simp only [iterDecodeBigSigned, State.withHost_len, State.withHost_idx, State.withHost_memRead,
      hlen.not_ge, hcont, ↓reduceIte]
    rfl
  · rw [endedBig, mergedBig] at hfits
    rw [hs]
    simp only [iterDecodeBigSigned, State.withHost_len, State.withHost_idx, State.withHost_memRead, State.withHost_acc,
      State.withHost_magFits, hlen.not_ge, hcont, hfits, ↓reduceIte, Bool.false_eq_true]
    rfl
  · rw [endedBig, mergedBig] at hfits
    rw [hs]
    simp [iterDecodeBigSigned, hlen.not_ge, hcont, hfits, raise_withHost]

end

/-! ### `exec` -/

/-- Settles O47: the change of host keeps `PHASE`, so both sides take the same start or iteration step. -/
theorem commandIgnoresHost : Obligations.CommandIgnoresHost := by
  intro i s g h d
  cases hp : s.phase
  case idle =>
    have hp' : (s.withHost g h d).phase = .idle := hp
    cases i
    case encodeU64 => simp only [exec_encodeU64_idle, hp, hp', startEncodeU64_withHost, mapNext_next]
    case decodeU64 => simp only [exec_decodeU64_idle, hp, hp', startDecodeU64_withHost, mapNext_next]
    case encodeBigSigned =>
      simp only [exec_encodeBigSigned_idle, hp, hp', startEncodeBigSigned_withHost, mapNext_next]
    case decodeBigSigned =>
      simp only [exec_decodeBigSigned_idle, hp, hp', startDecodeBigSigned_withHost, mapNext_next]
  case run =>
    have hp' : (s.withHost g h d).phase = .run := hp
    cases i
    case encodeU64 => simp only [exec_encodeU64_run, hp, hp', iterEncodeU64_withHost]
    case decodeU64 => simp only [exec_decodeU64_run, hp, hp', iterDecodeU64_withHost]
    case encodeBigSigned => simp only [exec_encodeBigSigned_run, hp, hp', iterEncodeBigSigned_withHost]
    case decodeBigSigned => simp only [exec_decodeBigSigned_run, hp, hp', iterDecodeBigSigned_withHost]

end Sys2Proof.Machine
end

section
/-! PROOFS. The shared operations in the terms the later proofs use: the capacities, the end of an encoder's step, and
the encoders' and decoders' units in arithmetic (R92, R102, R118 to R122, R137). -/

namespace Sys2Proof.Machine

/-! ### Capacities (R7) -/

theorem Capacity.admits_mono {c : Capacity} {m n : Nat} (h : c.admits n = true) (hmn : m ≤ n) : c.admits m = true := by
  cases c with
  | unbounded => rfl
  | bounded k => simp only [Capacity.admits, decide_eq_true_eq] at h ⊢; omega

@[simp] theorem Capacity.admits_zero (c : Capacity) : c.admits 0 = true := by
  cases c with
  | unbounded => rfl
  | bounded k => simp [Capacity.admits]

@[simp] theorem Capacity.admits_within (c : Capacity) (n : Nat) : c.admits (c.within n) = true := by
  cases c with
  | unbounded => rfl
  | bounded k => simp [Capacity.admits, Capacity.within, Nat.lt_succ_iff.1 (Nat.mod_lt n k.succ_pos)]

/-- What is kept to the bits of a register fits it. -/
theorem Capacity.admits_bitlen_lowBits (c : Capacity) (n : Nat) : c.admits (bitlen (c.lowBits n)) = true := by
  cases c with
  | unbounded => rfl
  | bounded k => simpa [Capacity.admits, Capacity.lowBits, bitlen_le_iff] using Nat.mod_lt n (Nat.two_pow_pos k)

/-- R7: every buffer has room for the ten groups of a 64-bit value. -/
theorem Config.admits_ten {c : Config} (h : c.wellFormed = true) : c.bufcap.admits 10 = true := by
  simp only [Config.wellFormed, Bool.and_eq_true] at h
  exact h.1.2

/-- R7: every buffer has room for the groups of a value that fits `MAGBITS`. -/
theorem Config.admits_groups {c : Config} {m : Nat} (h : c.wellFormed = true) (hm : c.magbits.admits m = true) :
    c.bufcap.admits (m / 7 + 1) = true := by
  have hfit : c.encoderFits = true := by
    simp only [Config.wellFormed, Bool.and_eq_true] at h
    exact h.2
  rw [Config.encoderFits] at hfit
  cases hmag : c.magbits with
  | unbounded =>
    rw [hmag] at hfit
    rw [of_decide_eq_true hfit]
    rfl
  | bounded k =>
    rw [hmag] at hfit hm
    have hmk : m ≤ k := of_decide_eq_true hm
    exact Capacity.admits_mono hfit (by have := Nat.div_le_div_right (c := 7) hmk; omega)

/-! ### `STATUS.BUSY` (R25) -/

theorem State.busy_eq_true {s : State} : s.busy = true ↔ s.phase = .run := by
  cases h : s.phase <;> simp [State.busy, h]

theorem State.busy_eq_false {s : State} : s.busy = false ↔ s.phase = .idle := by
  cases h : s.phase <;> simp [State.busy, h]

/-! ### The end of an encoder's step -/

section
variable (s : State) (b : Byte) (last : Bool)

theorem State.append_last : s.append b true = State.finish { s.memWrite s.idx b with len := s.idx + 1 } := rfl
theorem State.append_more : s.append b false = { s.memWrite s.idx b with idx := s.idx + 1 } := rfl

@[simp] theorem State.append_cfg : (s.append b last).cfg = s.cfg := by cases last <;> rfl
@[simp] theorem State.append_err : (s.append b last).err = s.err := by cases last <;> rfl
@[simp] theorem State.append_opr : (s.append b last).opr = s.opr := by cases last <;> rfl
@[simp] theorem State.append_val : (s.append b last).val = s.val := by cases last <;> rfl
@[simp] theorem State.append_bsign : (s.append b last).bsign = s.bsign := by cases last <;> rfl
@[simp] theorem State.append_bmag : (s.append b last).bmag = s.bmag := by cases last <;> rfl
@[simp] theorem State.append_n : (s.append b last).n = s.n := by cases last <;> rfl
@[simp] theorem State.append_a64 : (s.append b last).a64 = s.a64 := by cases last <;> rfl
@[simp] theorem State.append_w : (s.append b last).w = s.w := by cases last <;> rfl
@[simp] theorem State.append_size : (s.append b last).size = s.size := by cases last <;> rfl
@[simp] theorem State.append_neg : (s.append b last).neg = s.neg := by cases last <;> rfl
@[simp] theorem State.append_acc : (s.append b last).acc = s.acc := by cases last <;> rfl
@[simp] theorem State.append_epoch : (s.append b last).epoch = s.epoch := by cases last <;> rfl
@[simp] theorem State.append_draws : (s.append b last).draws = s.draws := by cases last <;> rfl
@[simp] theorem State.append_agenda : (s.append b last).agenda = s.agenda := by cases last <;> rfl
@[simp] theorem State.append_seen : (s.append b last).seen = s.seen := by cases last <;> rfl
@[simp] theorem State.append_buf : (s.append b last).buf = (s.memWrite s.idx b).buf := by cases last <;> rfl

@[simp] theorem State.append_phase : (s.append b last).phase = if last then .idle else s.phase := by cases last <;> rfl
@[simp] theorem State.append_done : (s.append b last).done = if last then true else s.done := by cases last <;> rfl
@[simp] theorem State.append_len : (s.append b last).len = if last then s.idx + 1 else s.len := by cases last <;> rfl

/-- R54, R56: an appended byte leaves every cell but the one at `IDX` as it was. -/
theorem State.append_memRead_ne {j : Nat} (h : j ≠ s.idx) : (s.append b last).memRead j = s.memRead j := by
  rw [← s.memRead_memWrite_ne b h]
  cases last <;> rfl

end

/-- A write lists existing cells only. -/
theorem State.memWrite_bufCells {s : State} (i : Nat) (b : Byte) (h : ∀ c ∈ s.buf, s.hasCell c.1 = true) :
    ∀ c ∈ (s.memWrite i b).buf, s.hasCell c.1 = true := by
  intro c hc
  cases hi : s.hasCell i with
  | false =>
    rw [State.memWrite_absent b hi] at hc
    exact h c hc
  | true =>
    rw [State.memWrite_present b hi] at hc
    rcases Memory.mem_put hc with rfl | hc
    · exact hi
    · exact h c hc

/-! ### Starts (R172, R173) -/

/-- The start step of a command. -/
def startStep : Instr → State → State
  | .encodeU64 => startEncodeU64
  | .decodeU64 => startDecodeU64
  | .encodeBigSigned => startEncodeBigSigned
  | .decodeBigSigned => startDecodeBigSigned

theorem exec_of_idle (i : Instr) {s : State} (h : s.phase = .idle) : exec i s = .next (startStep i s) := by
  cases i with
  | encodeU64 => exact exec_encodeU64_idle h
  | decodeU64 => exact exec_decodeU64_idle h
  | encodeBigSigned => exact exec_encodeBigSigned_idle h
  | decodeBigSigned => exact exec_decodeBigSigned_idle h

section
variable (i : Instr) (s : State)

@[simp] theorem startStep_phase : (startStep i s).phase = .run := by cases i <;> rfl
@[simp] theorem startStep_done : (startStep i s).done = false := by cases i <;> rfl
@[simp] theorem startStep_err : (startStep i s).err = .none := by cases i <;> rfl
@[simp] theorem startStep_opr : (startStep i s).opr = encode i := by cases i <;> rfl
@[simp] theorem startStep_idx : (startStep i s).idx = 0 := by cases i <;> rfl

/-- R76: the code latched by a start is read back as its command. -/
theorem decodeCmd_encode : decodeCmd (encode i) = i := by cases i <;> decide

theorem decodeCmd_startStep : decodeCmd (startStep i s).opr = i := by rw [startStep_opr, decodeCmd_encode]

end

/-! ### Units of the encoders -/

theorem shr64_toNat (v : Word64) : (shr64 v).toNat = v.toNat / 128 := by
  simp [shr64, BitVec.toNat_ushiftRight, Nat.shiftRight_eq_div_pow]

theorem shr64_eq_ofNat (v : Word64) : shr64 v = BitVec.ofNat 64 (v.toNat / 128) := by
  rw [← shr64_toNat, BitVec.ofNat_toNat, BitVec.setWidth_eq]

theorem lastU64_eq (v : Word64) : lastU64 (shr64 v) = decide (v.toNat / 128 = 0) := by
  rw [lastU64, Bool.beq_eq_decide_eq, decide_eq_decide, ← BitVec.toNat_inj, shr64_toNat]
  exact Iff.rfl

/-- R160: the seven bits as one mask. -/
theorem signFill7_eq (q size : Nat) : signFill7 q size = q ||| 127 * 2 ^ (max size 7 - 7) := by
  refine Nat.eq_of_testBit_eq fun j => ?_
  have hmask : (127 : Nat).testBit (j - (max size 7 - 7)) = decide (j - (max size 7 - 7) < 7) :=
    Nat.testBit_two_pow_sub_one 7 _
  rw [signFill7, testBit_setbits, Nat.testBit_or, Nat.testBit_mul_two_pow, hmask, ← Bool.decide_and]
  congr 1
  rw [decide_eq_decide]
  omega

/-- R118, R120 in arithmetic. -/
theorem bigFilled_eq (s : State) :
    bigFilled s = if s.neg then s.w / 128 ||| 127 * 2 ^ (max s.size 7 - 7) else s.w / 128 := by
  rw [bigFilled, signFill7_eq]
  rfl

/-- R121 in arithmetic: the end test of the group at `IDX`. -/
theorem lastBig_iff (s : State) :
    lastBig s.neg s.size (bigFilled s) (bigRem s) = true ↔
      (s.neg = false ∧ bigFilled s = 0 ∧ s.w % 128 < 64) ∨
      (s.neg = true ∧ bigFilled s % 2 ^ s.size = 2 ^ s.size - 1 ∧ 64 ≤ s.w % 128) := by
  have hbit : getbit (bigRem s) 6 = decide (64 ≤ s.w % 128) := by
    rw [bigRem, divMod128, getbit, Nat.testBit_eq_decide_div_mod_eq, decide_eq_decide]
    omega
  simp [lastBig, hbit, allOnes, and_assoc]

/-! ### Units of the decoders -/

/-- R51: the first `k` groups hold `7k` bits. -/
theorem groupSum_lt (f : Nat → Byte) (k : Nat) : groupSum f k < 2 ^ (7 * k) := by
  induction k with
  | zero => simp [groupSum]
  | succ k ih =>
    have hp : (Group.payload (f k)).toNat + 1 ≤ 128 := (Group.payload (f k)).isLt
    calc groupSum f (k + 1) < 2 ^ (7 * k) + (Group.payload (f k)).toNat * 2 ^ (7 * k) := by
          rw [groupSum]; omega
      _ = ((Group.payload (f k)).toNat + 1) * 2 ^ (7 * k) := by ring
      _ ≤ 128 * 2 ^ (7 * k) := Nat.mul_le_mul_right _ hp
      _ = 2 ^ (7 * (k + 1)) := by rw [Nat.mul_succ, pow_add, mul_comm]; rfl

/-- Merging group `k` into the sum of the groups below it is adding it: they share no bit. -/
theorem groupSum_or_payload (f : Nat → Byte) (k : Nat) :
    groupSum f k ||| (Group.payload (f k)).toNat <<< (7 * k) = groupSum f (k + 1) := by
  rw [Nat.or_comm, ← Nat.shiftLeft_add_eq_or_of_lt (groupSum_lt f k), Nat.shiftLeft_eq, groupSum, Nat.add_comm]

/-- R31, R138: `ACC` holding the payloads so far takes the next one. -/
theorem mergedBig_eq {s : State} (h : s.acc = groupSum s.memRead s.idx) :
    mergedBig s = groupSum s.memRead (s.idx + 1) := by
  rw [mergedBig, h, groupSum_or_payload]

/-- R29: `A64` holding the payloads so far takes the next one, less what lies at bit 64 and above. -/
theorem mergedU64_eq {s : State} (h : s.a64 = BitVec.ofNat 64 (groupSum s.memRead s.idx)) :
    mergedU64 s = BitVec.ofNat 64 (groupSum s.memRead (s.idx + 1)) := by
  have hp : (Group.payload (s.memRead s.idx)).toNat < 2 ^ 64 :=
    (Group.payload (s.memRead s.idx)).isLt.trans (by norm_num)
  apply BitVec.eq_of_toNat_eq
  rw [mergedU64, h, shl64, ← groupSum_or_payload, BitVec.toNat_or, BitVec.toNat_shiftLeft, BitVec.toNat_setWidth,
    Nat.mod_eq_of_lt hp, BitVec.toNat_ofNat, BitVec.toNat_ofNat, Nat.or_mod_two_pow]

/-- What an iteration of `decodeU64` leaves: a fault, one more group read, or the value. -/
theorem iterDecodeU64_inv {s t : State} (h : iterDecodeU64 s = .next t) :
    (∃ f, t = s.raise f) ∨
    (s.idx < s.len ∧ Group.cont (s.memRead s.idx) = true ∧ t = { s with a64 := mergedU64 s, idx := s.idx + 1 }) ∨
    t = State.finish { s with a64 := mergedU64 s, val := mergedU64 s } := by
  rcases iterDecodeU64_cases s with ⟨-, hs⟩ | ⟨-, -, hs⟩ | ⟨-, -, -, hs⟩ | ⟨hlen, -, -, hcont, hs⟩ | ⟨-, -, -, -, hs⟩
  · cases hs.symm.trans h
    exact .inl ⟨_, rfl⟩
  · cases hs.symm.trans h
    exact .inl ⟨_, rfl⟩
  · cases hs.symm.trans h
    exact .inl ⟨_, rfl⟩
  · cases hs.symm.trans h
    exact .inr (.inl ⟨hlen, hcont, rfl⟩)
  · cases hs.symm.trans h
    exact .inr (.inr rfl)

/-- What an iteration of `decodeBigSigned` leaves: a fault, one more group read, or a value that fits `BMAG`. -/
theorem iterDecodeBigSigned_inv {s t : State} (h : iterDecodeBigSigned s = .next t) :
    (∃ f, t = s.raise f) ∨
    (s.idx < s.len ∧ Group.cont (s.memRead s.idx) = true ∧ t = { s with acc := mergedBig s, idx := s.idx + 1 }) ∨
    (s.magFits (endedBig s).2 = true ∧
      t = State.finish { s with acc := mergedBig s, bsign := (endedBig s).1, bmag := (endedBig s).2 }) := by
  rcases iterDecodeBigSigned_cases s with ⟨-, hs⟩ | ⟨hlen, hcont, hs⟩ | ⟨-, -, hfits, hs⟩ | ⟨-, -, -, hs⟩
  · cases hs.symm.trans h
    exact .inl ⟨_, rfl⟩
  · cases hs.symm.trans h
    exact .inr (.inl ⟨hlen, hcont, rfl⟩)
  · cases hs.symm.trans h
    exact .inr (.inr ⟨hfits, rfl⟩)
  · cases hs.symm.trans h
    exact .inl ⟨_, rfl⟩

/-- R140, R159: a complemented magnitude is never 0, since the increment comes last. -/
theorem twosComplement_pos (m : Nat) : 0 < twosComplement m := Nat.succ_pos _

end Sys2Proof.Machine
end

section
/-! PROOFS. The invariant of the block (R21 to R31, R124). What a step can do is said once (`KeptByParts`): a predicate
kept by reset, a host write, the host's own lists, a start and an iteration is kept by every step. -/

namespace Sys2Proof.Machine

/-! ### What every step keeps, from its parts -/

/-- `P` is kept by each thing that a step is made of. -/
structure KeptByParts (P : State → Prop) : Prop where
  /-- What the host will do, has seen and has drawn is no part of it. -/
  host    : ∀ s g h d, P s → P (s.withHost g h d)
  /-- R210. -/
  reset   : ∀ s, P s → P (State.atReset s.cfg (s.epoch + 1))
  /-- R36. -/
  write   : ∀ s w, P s → s.phase = .idle → P (idleWrite s w)
  /-- R172, R173. -/
  start   : ∀ i s, P s → s.phase = .idle → P (startStep i s)
  /-- R170, R174. -/
  iterate : ∀ s t, P s → s.phase = .run → exec (decodeCmd s.opr) s = .next t → P t

section
variable {P : State → Prop} (hP : KeptByParts P)
include hP

/-- The codec's turn is an iteration or nothing. -/
theorem KeptByParts.codecTurn {s t : State} (h : P s) (ht : Machine.codecTurn s = .next t) : P t := by
  rcases codecTurn_cases s with ⟨-, hs⟩ | ⟨hrun, hs⟩ <;> rw [hs] at ht
  · cases ht
    exact h
  · exact hP.iterate s t h hrun ht

/-- A step is one host action or the codec's turn, and each of these is made of the parts. -/
theorem KeptByParts.step {s t : State} (h : P s) (ht : Machine.step s = .next t) : P t := by
  have took : ∀ rest, P { s with agenda := rest } := fun rest => hP.host s rest s.seen s.draws h
  rcases step_cases s with ⟨-, hs⟩ | ⟨rest, -, hs⟩ | ⟨w, rest, -, hs⟩ | ⟨c, rest, -, hs⟩ | ⟨r, rest, -, hs⟩ |
    ⟨rest, -, -, hs⟩ | ⟨rest, -, -, hs⟩ | ⟨rest, -, hs⟩ <;> rw [hs] at ht
  · exact hP.codecTurn h ht
  · cases ht
    exact hP.host _ rest s.seen s.draws (hP.reset s h)
  · rcases hostWrite_cases w { s with agenda := rest } with ⟨-, hw⟩ | ⟨hidle, hw⟩ <;> rw [hw] at ht <;> cases ht
    · exact took rest
    · exact hP.write _ w (took rest) (State.busy_eq_false.1 hidle)
  · rcases writeCmd_cases c { s with agenda := rest } with ⟨hidle, hw⟩ | ⟨-, hw⟩ <;> rw [hw] at ht
    · cases (exec_of_idle _ hidle).symm.trans ht
      exact hP.start _ _ (took rest) hidle
    · cases ht
      exact took rest
  · rcases hostRead_cases r { s with agenda := rest } with ⟨-, hr⟩ | ⟨-, hr⟩ <;> rw [hr] at ht <;> cases ht
    · exact hP.host s rest _ _ h
    · exact hP.host s rest _ _ h
  · cases ht
    exact took rest
  · exact hP.codecTurn h ht
  · exact hP.codecTurn (took rest) ht

end

/-! ### STATUS (R25) -/

theorem statusOk_running {s : State} (hd : s.done = false) (he : s.err = .none) : s.statusOk :=
  ⟨fun _ => hd, fun h => absurd he h⟩

theorem statusOk_ended {s : State} (hp : s.phase = .idle) (hd : s.done = true) : s.statusOk :=
  ⟨fun h => (by rw [hp] at h; cases h), fun _ => hd⟩

theorem statusOk_append {s : State} (h : s.statusOk) (b : Byte) (last : Bool) : (s.append b last).statusOk := by
  cases last with
  | false => exact h
  | true => exact statusOk_ended rfl rfl

/-- R175, R193: an iteration ends the command with `DONE = 1` or leaves `STATUS` alone. -/
theorem exec_statusOk_of_run (i : Instr) {s t : State} (h : s.statusOk) (hp : s.phase = .run)
    (ht : exec i s = .next t) : t.statusOk := by
  cases i with
  | encodeU64 =>
    cases (exec_encodeU64_run hp).symm.trans ht
    exact statusOk_append (s := { s with n := shr64 s.n }) h _ _
  | encodeBigSigned =>
    cases (exec_encodeBigSigned_run hp).symm.trans ht
    exact statusOk_append (s := { s with w := bigFilled s }) h _ _
  | decodeU64 =>
    rw [exec_decodeU64_run hp] at ht
    rcases iterDecodeU64_inv ht with ⟨f, rfl⟩ | ⟨-, -, rfl⟩ | rfl
    · exact statusOk_ended rfl rfl
    · exact h
    · exact statusOk_ended rfl rfl
  | decodeBigSigned =>
    rw [exec_decodeBigSigned_run hp] at ht
    rcases iterDecodeBigSigned_inv ht with ⟨f, rfl⟩ | ⟨-, -, rfl⟩ | ⟨-, rfl⟩
    · exact statusOk_ended rfl rfl
    · exact h
    · exact statusOk_ended rfl rfl

theorem statusOk_atReset (cfg : Config) (epoch : Nat) : (State.atReset cfg epoch).statusOk :=
  statusOk_running rfl rfl

/-- A host write leaves `STATUS` and `PHASE` alone. -/
theorem idleWrite_status (s : State) (w : HostWrite) :
    (idleWrite s w).phase = s.phase ∧ (idleWrite s w).done = s.done ∧ (idleWrite s w).err = s.err := by
  cases w with
  | bmag v => simp only [idleWrite]; split <;> exact ⟨rfl, rfl, rfl⟩
  | len v => simp only [idleWrite]; split <;> exact ⟨rfl, rfl, rfl⟩
  | _ => exact ⟨rfl, rfl, rfl⟩

theorem statusOk_idleWrite {s : State} (h : s.statusOk) (w : HostWrite) : (idleWrite s w).statusOk := by
  obtain ⟨hp, hd, he⟩ := idleWrite_status s w
  rwa [State.statusOk, hp, hd, he]

theorem statusOk_keptByParts : KeptByParts State.statusOk where
  host _ _ _ _ h := h
  reset s _ := statusOk_atReset s.cfg (s.epoch + 1)
  write _ w h _ := statusOk_idleWrite h w
  start i s _ _ := statusOk_running (startStep_done i s) (startStep_err i s)
  iterate _ _ h hp ht := exec_statusOk_of_run _ h hp ht

/-- Settles O25: reset, every start, every iteration and every host access keep R25's two facts. -/
theorem statusConsistencyKept : Obligations.StatusConsistencyKept := fun _ _ h ht => statusOk_keptByParts.step h ht

/-! ### Reset (R38) -/

theorem inv_atReset {cfg : Config} (epoch : Nat) (h : cfg.wellFormed = true) : Inv (State.atReset cfg epoch) where
  cfgOk := h
  bufWf := List.Pairwise.nil
  bufCells _ hc := absurd hc List.not_mem_nil
  lenOk := Capacity.admits_zero _
  bmagOk := Capacity.admits_zero _
  idxOk := Capacity.admits_within _ _
  statusOk := statusOk_atReset cfg epoch
  running hp := by cases hp

/-- Settles O31: after reset no cell is listed, no command runs, and `IDX` is within `BUFCAP`. -/
theorem resetMeetsInvariant : Obligations.ResetMeetsInvariant :=
  ⟨fun _ epoch h => inv_atReset epoch h, inv_atReset 0 rfl⟩

/-! ### Host writes (R36, R23) -/

theorem inv_idleWrite {s : State} (h : Inv s) (hp : s.phase = .idle) (w : HostWrite) : Inv (idleWrite s w) := by
  have notRunning : ∀ {p : Prop}, s.phase = .run → p := fun hr => by rw [hp] at hr; cases hr
  cases w with
  | status v => exact h
  | other k v => exact h
  | val v => exact { h with running := notRunning }
  | bsign v => exact { h with running := notRunning }
  | bmag v =>
    simp only [idleWrite]
    split
    case isTrue hfit => exact { h with bmagOk := hfit, running := notRunning }
    case isFalse => exact { h with bmagOk := Capacity.admits_bitlen_lowBits _ _, running := notRunning }
  | len v =>
    simp only [idleWrite]
    split
    case isTrue hfit => exact { h with lenOk := hfit, running := notRunning }
    case isFalse => exact h
  | buf i v =>
    exact { h with
      bufWf := s.memWrite_wf i v h.bufWf
      bufCells := State.memWrite_bufCells i v h.bufCells
      running := notRunning }

end Sys2Proof.Machine
end

section
/-! PROOFS. `encodeBigSigned` under way (R118 to R124): `W` agrees with `asr(value(BIG), 7 IDX)` on the bits that are
still to come, and the end test fires at the latest at group `SIZE div 7`. -/

namespace Sys2Proof.Machine

/-! ### The two's complement that the command starts from -/

theorem bitlen_le_bytelen (m : Nat) : bitlen m ≤ 8 * bytelen m := by
  rw [bytelen]
  omega

/-- R159: complement and magnitude together are the power of the shortest whole number of bytes. -/
theorem twosComplement_add (m : Nat) : twosComplement m + m = 2 ^ (8 * bytelen m) := by
  have hpow : 2 ^ (8 * bytelen m) = 256 ^ bytelen m := by rw [pow_mul]; rfl
  have hm : m < 256 ^ bytelen m := hpow ▸ (bitlen_le_iff m _).1 (bitlen_le_bytelen m)
  have hflip := fromBytesBE_flipped m (bytelen m)
  rw [Nat.mod_eq_of_lt hm] at hflip
  rw [hpow, twosComplement, add1, flipBytes, toBytesBE]
  omega

/-- R159: on its low bits the complement is the negated magnitude. -/
theorem twosComplement_emod {m k : Nat} (hk : k ≤ 8 * bytelen m) :
    (twosComplement m : Int) % 2 ^ k = -(m : Int) % 2 ^ k := by
  have hsum : (twosComplement m : Int) = -(m : Int) + 2 ^ (8 * bytelen m) := by
    have hnat := twosComplement_add m
    have hint : ((twosComplement m + m : Nat) : Int) = (2 : Int) ^ (8 * bytelen m) := by rw [hnat]; norm_cast
    push_cast at hint
    linarith
  obtain ⟨d, hd⟩ : (2 : Int) ^ k ∣ 2 ^ (8 * bytelen m) := pow_dvd_pow 2 hk
  rw [hsum, hd, Int.add_mul_emod_self_left]

/-! ### What is left to encode -/

theorem State.big_of_bigNeg {s : State} (h : s.bigNeg = true) : s.big = -(s.bmag : Int) ∧ 0 < s.bmag := by
  simp only [State.bigNeg, Bool.and_eq_true, bne_iff_ne, ne_eq] at h
  exact ⟨if_pos h.1, Nat.pos_of_ne_zero h.2⟩

theorem State.big_of_not_bigNeg {s : State} (h : s.bigNeg = false) : s.big = s.bmag := by
  rw [State.big]
  split
  case isTrue hs =>
    have hz : s.bmag = 0 := by simpa [State.bigNeg, hs] using h
    simp [hz]
  case isFalse => rfl

/-- `asr(value(BIG), 7i)`: what is left to encode after `i` groups (R124). -/
def State.bigLeft (s : State) (i : Nat) : Int := s.big / 2 ^ (7 * i)

theorem State.bigLeft_succ (s : State) (i : Nat) : s.bigLeft (i + 1) = s.bigLeft i / 128 := by
  rw [State.bigLeft, State.bigLeft, Int.ediv_ediv_of_nonneg (by positivity), Nat.mul_succ, pow_add]
  rfl

theorem State.bigLeft_neg {s : State} (h : s.bigNeg = true) (i : Nat) : s.bigLeft i < 0 := by
  obtain ⟨hbig, hpos⟩ := State.big_of_bigNeg h
  exact Int.ediv_neg_of_neg_of_pos (by omega) (by positivity)

/-- A magnitude of at most `7i + j` bits leaves at least `-2^j` after `i` groups. -/
theorem State.le_bigLeft {s : State} (h : s.bigNeg = true) {i j : Nat} (hsize : bitlen s.bmag ≤ 7 * i + j) :
    -2 ^ j ≤ s.bigLeft i := by
  obtain ⟨hbig, -⟩ := State.big_of_bigNeg h
  have hlt : (s.bmag : Int) < 2 ^ (7 * i + j) := by exact_mod_cast (bitlen_le_iff _ _).1 hsize
  rw [State.bigLeft, hbig, Int.le_ediv_iff_mul_le (by positivity), neg_mul, ← pow_add, Nat.add_comm j]
  omega

/-! ### One division and sign fill -/

/-- R160: the mask fixes the seven bits below `k + 7`, whatever they were. -/
theorem or_mask_mod (q k : Nat) : (q ||| 127 * 2 ^ k) % 2 ^ (k + 7) = q % 2 ^ k + 127 * 2 ^ k := by
  have hsum : q % 2 ^ k + 127 * 2 ^ k = q % 2 ^ k ||| 127 * 2 ^ k := by
    rw [Nat.add_comm, ← Nat.shiftLeft_eq, Nat.shiftLeft_add_eq_or_of_lt (Nat.mod_lt _ (Nat.two_pow_pos k)), Nat.or_comm]
  have hmask : ∀ j, (127 : Nat).testBit j = decide (j < 7) := fun j => Nat.testBit_two_pow_sub_one 7 j
  rw [hsum]
  refine Nat.eq_of_testBit_eq fun j => ?_
  simp only [Nat.testBit_mod_two_pow, Nat.testBit_or, Nat.testBit_mul_two_pow, hmask]
  by_cases hlow : j < k
  · simp [hlow, hlow.not_ge, show j < k + 7 by omega]
  · by_cases hmid : j < k + 7
    · simp [hlow, hmid, show j - k < 7 by omega, Nat.le_of_not_lt hlow]
    · simp [hlow, hmid, show ¬ j - k < 7 by omega]

/-- R118, R120: on `k + 7` bits, dividing a negative number by 128 is dropping seven bits and setting the seven on
top. -/
theorem filled_emod {w k : Nat} {a : Int} (lo : -2 ^ (k + 7) ≤ a) (hi : a < 0)
    (h : (w : Int) % 2 ^ (k + 7) = a % 2 ^ (k + 7)) :
    ((w / 128 ||| 127 * 2 ^ k : Nat) : Int) % 2 ^ (k + 7) = a / 128 % 2 ^ (k + 7) := by
  have hpow : (2 : Int) ^ (k + 7) = 128 * 2 ^ k := by rw [pow_add, mul_comm]; norm_num
  have hpos : (0 : Int) < 2 ^ k := by positivity
  have wrap : ∀ b : Int, -2 ^ (k + 7) ≤ b → b < 0 → b % 2 ^ (k + 7) = b + 2 ^ (k + 7) := fun b hb hb' => by
    rw [← Int.add_emod_right, Int.emod_eq_of_lt (by omega) (by omega)]
  have hlow : w / 128 % 2 ^ k = w % 2 ^ (k + 7) / 128 := by
    rw [pow_add, mul_comm, ← Nat.mod_mul_right_div_self]
    rfl
  have hcast : ((w % 2 ^ (k + 7) : Nat) : Int) = a + 128 * 2 ^ k := by
    rw [Int.natCast_mod, Nat.cast_pow, Nat.cast_ofNat, h, wrap a lo hi, hpow]
  calc ((w / 128 ||| 127 * 2 ^ k : Nat) : Int) % 2 ^ (k + 7)
      = ((w % 2 ^ (k + 7) / 128 + 127 * 2 ^ k : Nat) : Int) := by
        rw [← hlow, ← or_mask_mod]
        norm_cast
    _ = (a + 128 * 2 ^ k) / 128 + 127 * 2 ^ k := by
        rw [← hcast]
        norm_cast
    _ = a / 128 + 2 ^ (k + 7) := by
        rw [Int.add_mul_ediv_left _ _ (by norm_num), hpow]
        ring
    _ = a / 128 % 2 ^ (k + 7) := (wrap _ (by omega) (by omega)).symm

/-! ### The command's invariant -/

theorem encodingBig_start (s : State) : encodingBig (startEncodeBigSigned s) := by
  refine ⟨rfl, rfl, Nat.zero_le _, fun hneg => ?_, ?_⟩
  case refine_1 =>
    have hw : (startEncodeBigSigned s).w = s.bmag := if_neg (show s.bigNeg ≠ true from ne_true_of_eq_false hneg)
    rw [hw]
    exact (Nat.div_one s.bmag).symm
  case refine_2 =>
    have hleft : s.big / 2 ^ (7 * 0) = s.big := by simp
    show ((if s.bigNeg then twosComplement s.bmag else s.bmag : Nat) : Int) % 2 ^ max (bitlen s.bmag) 7 =
      s.big / 2 ^ (7 * 0) % 2 ^ max (bitlen s.bmag) 7
    rw [hleft]
    cases hneg : s.bigNeg with
    | false => rw [State.big_of_not_bigNeg hneg]; rfl
    | true =>
      obtain ⟨hbig, hpos⟩ := State.big_of_bigNeg hneg
      have hk : max (bitlen s.bmag) 7 ≤ 8 * bytelen s.bmag := by
        have := bitlen_pos hpos
        rw [bytelen]
        omega
      rw [hbig]
      exact twosComplement_emod hk

section
variable {s : State} (h : encodingBig s)
include h

/-- R118 to R120: the filled quotient stands to the next index as `W` stands to this one. -/
theorem bigFilled_of_not_neg (hneg : s.neg = false) : bigFilled s = s.bmag / 2 ^ (7 * (s.idx + 1)) := by
  obtain ⟨-, -, -, hw, -⟩ := h
  have hpow : 2 ^ (7 * s.idx) * 128 = 2 ^ (7 * (s.idx + 1)) := by ring
  rw [bigFilled_eq, hneg, hw hneg, if_neg Bool.false_ne_true, Nat.div_div_eq_div_mul, hpow]

theorem bigFilled_emod :
    (bigFilled s : Int) % 2 ^ max s.size 7 = s.bigLeft (s.idx + 1) % 2 ^ max s.size 7 := by
  obtain ⟨hsize, hbn, -, -, hmod⟩ := id h
  cases hneg : s.neg with
  | false =>
    rw [bigFilled_of_not_neg h hneg, State.bigLeft, State.big_of_not_bigNeg (hbn ▸ hneg)]
    norm_cast
  | true =>
    have hk : max s.size 7 = max s.size 7 - 7 + 7 := by omega
    have hfill : bigFilled s = s.w / 128 ||| 127 * 2 ^ (max s.size 7 - 7) := by rw [bigFilled_eq, if_pos hneg]
    rw [hfill, State.bigLeft_succ, hk]
    exact filled_emod (hk ▸ State.le_bigLeft (hbn ▸ hneg) (by omega)) (State.bigLeft_neg (hbn ▸ hneg) _) (hk ▸ hmod)

/-- R121, R122: with fewer than seven bits left the end test fires. -/
theorem lastBig_of_size_lt (hlt : s.size < 7 * (s.idx + 1)) :
    lastBig s.neg s.size (bigFilled s) (bigRem s) = true := by
  obtain ⟨hsize, hbn, -, hw, hmod⟩ := id h
  rw [lastBig_iff]
  cases hneg : s.neg with
  | false =>
    have hbound : s.bmag < 2 ^ (7 * s.idx) * 64 := by
      have := (bitlen_le_iff s.bmag (7 * s.idx + 6)).1 (by omega)
      rwa [pow_add] at this
    have hsmall : s.w < 64 := hw hneg ▸ Nat.div_lt_of_lt_mul hbound
    refine .inl ⟨rfl, ?_, ?_⟩
    · rw [bigFilled_eq, hneg]
      exact Nat.div_eq_of_lt (by omega)
    · omega
  | true =>
    have hlo : -2 ^ 6 ≤ s.bigLeft s.idx := State.le_bigLeft (hbn ▸ hneg) (by omega)
    have hhi := State.bigLeft_neg (hbn ▸ hneg) s.idx
    have hnext : s.bigLeft (s.idx + 1) = -1 := by
      rw [State.bigLeft_succ]
      omega
    refine .inr ⟨rfl, ?_, ?_⟩
    · have hones : (bigFilled s : Int) % 2 ^ s.size = -1 % 2 ^ s.size := by
        have hd : (2 : Int) ^ s.size ∣ 2 ^ max s.size 7 := pow_dvd_pow 2 (le_max_left _ _)
        rw [← Int.emod_emod_of_dvd _ hd, bigFilled_emod h, hnext, Int.emod_emod_of_dvd _ hd]
      have hpos : (0 : Int) < 2 ^ s.size := by positivity
      have hnat : ((bigFilled s % 2 ^ s.size : Nat) : Int) = -1 + 2 ^ s.size := by
        push_cast
        rw [hones, ← Int.add_emod_right, Int.emod_eq_of_lt (by omega) (by omega)]
      have hcast : ((2 ^ s.size : Nat) : Int) = 2 ^ s.size := by norm_cast
      omega
    · have hrem : (s.w : Int) % 128 = s.bigLeft s.idx % 128 := by
        have hd : (128 : Int) ∣ 2 ^ max s.size 7 := pow_dvd_pow 2 (le_max_right s.size 7)
        rw [← Int.emod_emod_of_dvd _ hd, hmod, Int.emod_emod_of_dvd _ hd]
        rfl
      omega

/-- A group that is not the last leaves a group within `SIZE div 7`. -/
theorem idx_succ_le_of_not_last (hlast : lastBig s.neg s.size (bigFilled s) (bigRem s) = false) :
    s.idx + 1 ≤ s.size / 7 := by
  by_contra hgt
  rw [lastBig_of_size_lt h (by omega)] at hlast
  cases hlast

theorem encodingBig_append (b : Byte) (hlast : lastBig s.neg s.size (bigFilled s) (bigRem s) = false) :
    encodingBig (State.append { s with w := bigFilled s } b false) := by
  obtain ⟨hsize, hbn, -, -, -⟩ := id h
  have hidx : s.idx + 1 ≤ s.size / 7 := idx_succ_le_of_not_last h hlast
  exact ⟨hsize, hbn, hidx, bigFilled_of_not_neg h, bigFilled_emod h⟩

end

end Sys2Proof.Machine
end

section
/-! PROOFS. Every start and every iteration keeps the invariant, and with the host's accesses so does every step. -/

namespace Sys2Proof.Machine

/-! ### The running clause by command (R174) -/

section
variable {s : State}

theorem commandOk_encodeU64 (h : decodeCmd s.opr = .encodeU64) : commandOk s ↔ encodingU64 s := by
  simp only [commandOk, h]
theorem commandOk_decodeU64 (h : decodeCmd s.opr = .decodeU64) : commandOk s ↔ decodingU64 s := by
  simp only [commandOk, h]
theorem commandOk_encodeBigSigned (h : decodeCmd s.opr = .encodeBigSigned) : commandOk s ↔ encodingBig s := by
  simp only [commandOk, h]
theorem commandOk_decodeBigSigned (h : decodeCmd s.opr = .decodeBigSigned) : commandOk s ↔ decodingBig s := by
  simp only [commandOk, h]

end

/-- A decoder that starts has read nothing. -/
theorem readingGroups_zero {s : State} (h : s.idx = 0) : readingGroups s :=
  ⟨h ▸ Nat.zero_le _, fun _ hj => absurd hj (by omega)⟩

/-- One more continuing group read: the next state has the same cells and `LEN`, and `IDX` one higher. -/
theorem readingGroups_succ {s t : State} (h : readingGroups s) (hlen : s.idx < s.len)
    (hcont : Group.cont (s.memRead s.idx) = true) (tlen : t.len = s.len) (tidx : t.idx = s.idx + 1)
    (tmem : t.memRead = s.memRead) : readingGroups t := by
  obtain ⟨-, hprev⟩ := h
  rw [readingGroups, tlen, tidx, tmem]
  refine ⟨hlen, fun j hj => ?_⟩
  rcases Nat.lt_succ_iff_lt_or_eq.1 hj with hj | rfl
  · exact hprev j hj
  · exact hcont

/-! ### Starts (R173) -/

/-- Each command starts with its working registers as its rules say. -/
theorem commandOk_startStep (i : Instr) (s : State) : commandOk (startStep i s) := by
  have hc := decodeCmd_startStep i s
  cases i with
  | encodeU64 => exact (commandOk_encodeU64 hc).2 ⟨(Nat.div_one _).symm, Nat.zero_le _⟩
  | decodeU64 => exact (commandOk_decodeU64 hc).2 ⟨readingGroups_zero rfl, rfl⟩
  | encodeBigSigned => exact (commandOk_encodeBigSigned hc).2 (encodingBig_start s)
  | decodeBigSigned => exact (commandOk_decodeBigSigned hc).2 ⟨readingGroups_zero rfl, rfl⟩

/-- A start keeps the operands, the buffer and the parameters. -/
theorem inv_startStep (i : Instr) {s : State} (h : Inv s) : Inv (startStep i s) := by
  have hidx : s.cfg.bufcap.admits (startStep i s).idx = true := startStep_idx i s ▸ Capacity.admits_zero _
  have hst := statusOk_running (startStep_done i s) (startStep_err i s)
  have hrun := commandOk_startStep i s
  cases i <;> exact { h with idxOk := hidx, statusOk := hst, running := fun _ => hrun }

/-! ### Iterations (R170) -/

/-- R56: an encoder's step keeps the invariant where the buffer has room up to `IDX` and, if the command goes on, its
registers are as they should be. -/
theorem inv_append {s : State} {n : Word64} {w : Nat} {b : Byte} {last : Bool} (h : Inv s)
    (room : s.cfg.bufcap.admits (s.idx + 1) = true)
    (goesOn : last = false → commandOk (State.append { s with n := n, w := w } b false)) :
    Inv (State.append { s with n := n, w := w } b last) := by
  have hst := statusOk_append (s := { s with n := n, w := w }) h.statusOk b last
  have hwf := s.memWrite_wf s.idx b h.bufWf
  have hcells := State.memWrite_bufCells s.idx b h.bufCells
  cases last with
  | false =>
    exact { h with bufWf := hwf, bufCells := hcells, idxOk := room, statusOk := hst, running := fun _ => goesOn rfl }
  | true =>
    exact { h with
      bufWf := hwf, bufCells := hcells, lenOk := room, statusOk := hst, running := fun hr => (by cases hr) }

theorem inv_raise {s : State} (h : Inv s) (f : ErrCode) : Inv (s.raise f) :=
  { h with statusOk := statusOk_ended rfl rfl, running := fun hr => (by cases hr) }

/-- R94: ten groups are enough, since `N = VAL >> 63` is below 2 at the tenth. -/
theorem encodingU64_append {s : State} (h : encodingU64 s) (b : Byte) (hlast : lastU64 (shr64 s.n) = false) :
    encodingU64 (State.append { s with n := shr64 s.n } b false) := by
  obtain ⟨hn, hidx⟩ := h
  rw [lastU64_eq, decide_eq_false_iff_not] at hlast
  have hne : s.idx ≠ 9 := fun h9 => by
    have hv := s.val.isLt
    rw [hn, h9] at hlast
    omega
  have hq : (shr64 s.n).toNat = s.val.toNat / 2 ^ (7 * (s.idx + 1)) := by
    have hpow : 2 ^ (7 * s.idx) * 128 = 2 ^ (7 * (s.idx + 1)) := by ring
    rw [shr64_toNat, hn, Nat.div_div_eq_div_mul, hpow]
  exact ⟨hq, show s.idx + 1 ≤ 9 by omega⟩

theorem inv_iterEncodeU64 {s t : State} (h : Inv s) (hp : s.phase = .run) (hc : decodeCmd s.opr = .encodeU64)
    (ht : iterEncodeU64 s = .next t) : Inv t := by
  have hrun : encodingU64 s := (commandOk_encodeU64 hc).1 (h.running hp)
  obtain ⟨-, hidx⟩ := id hrun
  cases (iterEncodeU64_next s).symm.trans ht
  refine inv_append h (Capacity.admits_mono (Config.admits_ten h.cfgOk) (by omega)) fun hlast =>
    (commandOk_encodeU64 ?_).2 (encodingU64_append hrun _ hlast)
  exact hc

theorem inv_iterDecodeU64 {s t : State} (h : Inv s) (hp : s.phase = .run) (hc : decodeCmd s.opr = .decodeU64)
    (ht : iterDecodeU64 s = .next t) : Inv t := by
  obtain ⟨hread, hacc⟩ : decodingU64 s := (commandOk_decodeU64 hc).1 (h.running hp)
  rcases iterDecodeU64_inv ht with ⟨f, rfl⟩ | ⟨hlen, hcont, rfl⟩ | rfl
  · exact inv_raise h f
  · refine { h with idxOk := Capacity.admits_mono h.lenOk hlen, running := fun _ => ?_ }
    refine (commandOk_decodeU64 ?_).2 ⟨readingGroups_succ hread hlen hcont rfl rfl rfl, mergedU64_eq hacc⟩
    exact hc
  · exact { h with statusOk := statusOk_ended rfl rfl, running := fun hr => (by cases hr) }

theorem inv_iterEncodeBigSigned {s t : State} (h : Inv s) (hp : s.phase = .run)
    (hc : decodeCmd s.opr = .encodeBigSigned) (ht : iterEncodeBigSigned s = .next t) : Inv t := by
  have hrun : encodingBig s := (commandOk_encodeBigSigned hc).1 (h.running hp)
  obtain ⟨hsize, -, hidx, -, -⟩ := id hrun
  have room : s.cfg.bufcap.admits (s.size / 7 + 1) = true :=
    Config.admits_groups h.cfgOk (hsize ▸ h.bmagOk)
  cases (iterEncodeBigSigned_next s).symm.trans ht
  refine inv_append h (Capacity.admits_mono room (by omega)) fun hlast =>
    (commandOk_encodeBigSigned ?_).2 (encodingBig_append hrun _ hlast)
  exact hc

theorem inv_iterDecodeBigSigned {s t : State} (h : Inv s) (hp : s.phase = .run)
    (hc : decodeCmd s.opr = .decodeBigSigned) (ht : iterDecodeBigSigned s = .next t) : Inv t := by
  obtain ⟨hread, hacc⟩ : decodingBig s := (commandOk_decodeBigSigned hc).1 (h.running hp)
  rcases iterDecodeBigSigned_inv ht with ⟨f, rfl⟩ | ⟨hlen, hcont, rfl⟩ | ⟨hfits, rfl⟩
  · exact inv_raise h f
  · refine { h with idxOk := Capacity.admits_mono h.lenOk hlen, running := fun _ => ?_ }
    refine (commandOk_decodeBigSigned ?_).2 ⟨readingGroups_succ hread hlen hcont rfl rfl rfl, mergedBig_eq hacc⟩
    exact hc
  · exact { h with bmagOk := hfits, statusOk := statusOk_ended rfl rfl, running := fun hr => (by cases hr) }

theorem inv_iterate {s t : State} (h : Inv s) (hp : s.phase = .run) (ht : exec (decodeCmd s.opr) s = .next t) :
    Inv t := by
  cases hc : decodeCmd s.opr with
  | encodeU64 => exact inv_iterEncodeU64 h hp hc (by rwa [hc, exec_encodeU64_run hp] at ht)
  | decodeU64 => exact inv_iterDecodeU64 h hp hc (by rwa [hc, exec_decodeU64_run hp] at ht)
  | encodeBigSigned => exact inv_iterEncodeBigSigned h hp hc (by rwa [hc, exec_encodeBigSigned_run hp] at ht)
  | decodeBigSigned => exact inv_iterDecodeBigSigned h hp hc (by rwa [hc, exec_decodeBigSigned_run hp] at ht)

/-! ### Every step -/

theorem inv_keptByParts : KeptByParts Inv where
  host _ _ _ _ h := { h with }
  reset s h := inv_atReset (s.epoch + 1) h.cfgOk
  write _ w h hp := inv_idleWrite h hp w
  start i _ h _ := inv_startStep i h
  iterate _ _ h hp ht := inv_iterate h hp ht

/-- Settles O32: reset, every host access, every start and every iteration keep the invariant. -/
theorem stepKeepsInvariant : Obligations.StepKeepsInvariant := fun _ _ h ht => inv_keptByParts.step h ht

end Sys2Proof.Machine
end

section
/-! PROOFS. What a command's step leaves unchanged (R40, R55, R56), what it does at an index that no cell has (R54,
R58), and that no negative zero comes out of it (R140). -/

namespace Sys2Proof.Machine

/-! ### Frames -/

/-- R174: an iteration leaves the latched code alone. -/
theorem exec_opr_of_run (i : Instr) {s t : State} (hp : s.phase = .run) (ht : exec i s = .next t) : t.opr = s.opr := by
  cases i with
  | encodeU64 =>
    cases (exec_encodeU64_run hp).symm.trans ht
    exact State.append_opr _ _ _
  | encodeBigSigned =>
    cases (exec_encodeBigSigned_run hp).symm.trans ht
    exact State.append_opr _ _ _
  | decodeU64 =>
    rw [exec_decodeU64_run hp] at ht
    rcases iterDecodeU64_inv ht with ⟨f, rfl⟩ | ⟨-, -, rfl⟩ | rfl
    · rfl
    · rfl
    · rfl
  | decodeBigSigned =>
    rw [exec_decodeBigSigned_run hp] at ht
    rcases iterDecodeBigSigned_inv ht with ⟨f, rfl⟩ | ⟨-, -, rfl⟩ | ⟨-, rfl⟩
    · rfl
    · rfl
    · rfl

/-- An encoder's step that does not end the command leaves `LEN` and `DONE` alone. -/
theorem append_of_run {s : State} {b : Byte} {last : Bool} (h : (s.append b last).phase = .run) :
    (s.append b last).len = s.len ∧ (s.append b last).done = s.done := by
  cases last with
  | false => exact ⟨rfl, rfl⟩
  | true => cases h

/-- Settles O19: a start stores nothing, an iteration is one `State.append`. -/
theorem encoderStepFrame : Obligations.EncoderStepFrame := by
  rintro i s t (rfl | rfl) ht <;> cases hp : s.phase
  case inl.idle =>
    cases (exec_encodeU64_idle hp).symm.trans ht
    simp [startEncodeU64, State.memRead]
  case inr.idle =>
    cases (exec_encodeBigSigned_idle hp).symm.trans ht
    simp [startEncodeBigSigned, State.memRead]
  case inl.run =>
    cases (exec_encodeU64_run hp).symm.trans ht
    have hmem : ∀ b last j, j ≠ s.idx → (State.append { s with n := shr64 s.n } b last).memRead j = s.memRead j :=
      fun b last _ hj => State.append_memRead_ne _ b last hj
    refine ⟨by simp, by simp, by simp, by simp, fun j hj => hmem _ _ j (by simpa using hj), by simp, fun hr => ?_⟩
    simpa using append_of_run hr
  case inr.run =>
    cases (exec_encodeBigSigned_run hp).symm.trans ht
    have hmem : ∀ b last j, j ≠ s.idx → (State.append { s with w := bigFilled s } b last).memRead j = s.memRead j :=
      fun b last _ hj => State.append_memRead_ne _ b last hj
    refine ⟨by simp, by simp, by simp, by simp, fun j hj => hmem _ _ j (by simpa using hj), by simp, fun hr => ?_⟩
    simpa using append_of_run hr

/-- Settles O20: a decoder's start and each of the three ways its iteration can go store nothing. -/
theorem decoderStepFrame : Obligations.DecoderStepFrame := by
  rintro i s t (rfl | rfl) ht <;> cases hp : s.phase
  case inl.idle =>
    cases (exec_decodeU64_idle hp).symm.trans ht
    simp [startDecodeU64, State.memRead]
  case inr.idle =>
    cases (exec_decodeBigSigned_idle hp).symm.trans ht
    simp [startDecodeBigSigned, State.memRead]
  case inl.run =>
    rw [exec_decodeU64_run hp] at ht
    rcases iterDecodeU64_inv ht with ⟨f, rfl⟩ | ⟨-, -, rfl⟩ | rfl
    · simp
    · simp [State.memRead]
    · simp [State.memRead]
  case inr.run =>
    rw [exec_decodeBigSigned_run hp] at ht
    rcases iterDecodeBigSigned_inv ht with ⟨f, rfl⟩ | ⟨-, -, rfl⟩ | ⟨-, rfl⟩
    · simp
    · simp [State.memRead]
    · simp [State.memRead]

/-! ### Negative zero -/

/-- Settles O57: a negative result is a two's complement, whose last step is an increment. -/
theorem noNegativeZeroProduced : Obligations.NoNegativeZeroProduced := by
  intro s t _ hp _ ht hsign hmag
  rw [exec_decodeBigSigned_run hp] at ht
  rcases iterDecodeBigSigned_inv ht with ⟨f, rfl⟩ | ⟨-, -, rfl⟩ | ⟨-, rfl⟩
  · exact ⟨rfl, rfl⟩
  · exact ⟨rfl, rfl⟩
  · have hsign' : (endedBig s).1 = true := hsign
    have hmag' : (endedBig s).2 = 0 := hmag
    rw [endedBig, bigResult] at hsign' hmag'
    split at hmag'
    case isTrue => exact absurd hmag' (twosComplement_pos _).ne'
    case isFalse hs =>
      rw [if_neg hs] at hsign'
      cases hsign'

/-! ### An index that no cell has -/

section
variable {s : State} (h : s.hasCell s.idx = false)
include h

/-- R57, R58: the end of an encoder's step, without the store. -/
theorem append_last_absent (b : Byte) :
    s.append b true = { s with len := s.idx + 1, phase := .idle, done := true } := by
  rw [State.append_last, State.memWrite_absent b h]
  rfl

theorem append_more_absent (b : Byte) : s.append b false = { s with idx := s.idx + 1 } := by
  rw [State.append_more, State.memWrite_absent b h]

end

/-- Settles O26: both encoders' steps are a `State.append`, which at such an index is all it is but the store. -/
theorem absentCellAccess : Obligations.AbsentCellAccess := by
  refine fun s => ⟨fun i b h => State.memWrite_absent b h, fun hb i h => State.memRead_absent hb h, fun hp h => ?_⟩
  rw [exec_encodeU64_run hp, exec_encodeBigSigned_run hp, iterEncodeU64_next, iterEncodeBigSigned_next, lastU64_eq,
    shr64_eq_ofNat, ← bigFilled_eq]
  refine ⟨fun hz => ?_, fun hz => ?_, fun hlast => ?_, fun hlast => ?_⟩
  · rw [decide_eq_true hz, append_last_absent (s := { s with n := BitVec.ofNat 64 (s.n.toNat / 128) }) h, hz]
    rfl
  · rw [decide_eq_false hz, append_more_absent (s := { s with n := BitVec.ofNat 64 (s.n.toNat / 128) }) h]
  · rw [(lastBig_iff s).2 hlast, append_last_absent (s := { s with w := bigFilled s }) h]
  · rw [Bool.eq_false_iff.2 (mt (lastBig_iff s).1 hlast), append_more_absent (s := { s with w := bigFilled s }) h]

end Sys2Proof.Machine
end

section
/-! PROOFS. No step of the machine looks at a working register that its command's start has not written (R35, R39,
R173). `State.live` keeps of the working registers those the running command reads. A step from the live part and a step
from the whole state end in the same live part, so machines with equal live parts stay so. -/

namespace Sys2Proof.Machine

/-! ### The working registers as one part of the state -/

/-- The working registers (R27 to R31), each 0 where nothing else is said. -/
structure Work where
  idx  : Nat := 0
  n    : Word64 := 0
  a64  : Word64 := 0
  w    : Nat := 0
  size : Nat := 0
  neg  : Bool := false
  acc  : Nat := 0

/-- The working registers of a state. -/
def State.work (s : State) : Work := ⟨s.idx, s.n, s.a64, s.w, s.size, s.neg, s.acc⟩

/-- The state with other working registers. -/
def State.withWork (s : State) (x : Work) : State :=
  { s with idx := x.idx, n := x.n, a64 := x.a64, w := x.w, size := x.size, neg := x.neg, acc := x.acc }

/-- The working registers that the iterations of a command read (R92, R102, R118, R137), the others blotted out. -/
def Work.readBy (x : Work) : Instr → Work
  | .encodeU64 => { idx := x.idx, n := x.n }
  | .decodeU64 => { idx := x.idx, a64 := x.a64 }
  | .encodeBigSigned => { idx := x.idx, w := x.w, size := x.size, neg := x.neg }
  | .decodeBigSigned => { idx := x.idx, acc := x.acc }

/-- The working registers that some later step can read before it writes them: none in `IDLE`. -/
def State.liveWork (s : State) : Work :=
  match s.phase with
  | .idle => {}
  | .run => s.work.readBy (decodeCmd s.opr)

/-- The state with every other working register blotted out. -/
def State.live (s : State) : State := s.withWork s.liveWork

/-- The state with what the command `i` does not read blotted out. -/
def State.forCommand (i : Instr) (s : State) : State := s.withWork (s.work.readBy i)

theorem State.live_withoutWork (s : State) : s.live.withoutWork = s.withoutWork := rfl

theorem State.live_idle {s : State} (h : s.phase = .idle) : s.live = s.withWork {} := by
  rw [State.live, State.liveWork, h]

theorem State.live_run {s : State} {i : Instr} (h : s.phase = .run) (hc : decodeCmd s.opr = i) :
    s.live = s.forCommand i := by
  rw [State.live, State.liveWork, h, hc, State.forCommand]

/-- Blotting out what the latched command does not read loses nothing live. -/
theorem State.live_forCommand {s : State} {i : Instr} (hc : decodeCmd s.opr = i) : (s.forCommand i).live = s.live := by
  cases h : s.phase with
  | idle => rw [State.live_idle h, State.live_idle (s := s.forCommand i) h]; rfl
  | run =>
    rw [State.live_run h hc, State.live_run (s := s.forCommand i) h hc]
    cases i <;> rfl

theorem State.live_live (s : State) : s.live.live = s.live := by
  cases h : s.phase with
  | idle => rw [State.live_idle (s := s.live) h, State.live_idle h]; rfl
  | run => rw [State.live_run h rfl, State.live_forCommand rfl, State.live_run h rfl]

/-! ### The codec -/

/-- R173: a start writes every working register that its command reads. -/
theorem startStep_withWork (i : Instr) (s : State) (x : Work) :
    (startStep i (s.withWork x)).forCommand i = (startStep i s).forCommand i := by
  cases i <;> rfl

theorem exec_live_of_idle (i : Instr) {s : State} (h : s.phase = .idle) :
    mapNext State.live (exec i s.live) = mapNext State.live (exec i s) := by
  have h' : (s.withWork {}).phase = .idle := h
  rw [State.live_idle h, exec_of_idle i h, exec_of_idle i h', mapNext_next, mapNext_next,
    State.live_run (startStep_phase i _) (decodeCmd_startStep i _),
    State.live_run (startStep_phase i _) (decodeCmd_startStep i _), startStep_withWork]

theorem append_forCommand_encodeU64 (s : State) (b : Byte) (last : Bool) :
    (s.forCommand .encodeU64).append b last = (s.append b last).forCommand .encodeU64 := by
  cases last <;> rfl

theorem append_forCommand_encodeBigSigned (s : State) (b : Byte) (last : Bool) :
    (s.forCommand .encodeBigSigned).append b last = (s.append b last).forCommand .encodeBigSigned := by
  cases last <;> rfl

/-- An iteration of a command looks at none of the other commands' working registers. -/
theorem exec_forCommand (i : Instr) {s : State} (h : s.phase = .run) :
    exec i (s.forCommand i) = mapNext (State.forCommand i) (exec i s) := by
  have h' : (s.forCommand i).phase = .run := h
  cases i with
  | encodeU64 =>
    rw [exec_encodeU64_run h, exec_encodeU64_run h', iterEncodeU64_next s, mapNext_next, ← append_forCommand_encodeU64]
    rfl
  | encodeBigSigned =>
    rw [exec_encodeBigSigned_run h, exec_encodeBigSigned_run h', iterEncodeBigSigned_next s, mapNext_next,
      ← append_forCommand_encodeBigSigned]
    rfl
  | decodeU64 =>
    rw [exec_decodeU64_run h, exec_decodeU64_run h', iterDecodeU64, iterDecodeU64]
    simp only [apply_ite (mapNext _), mapNext_next, apply_ite (State.forCommand .decodeU64)]
    rfl
  | decodeBigSigned =>
    rw [exec_decodeBigSigned_run h, exec_decodeBigSigned_run h', iterDecodeBigSigned, iterDecodeBigSigned]
    simp only [apply_ite (mapNext _), mapNext_next]
    rfl

/-- An iteration ends up with the same live part when it starts from the live part. -/
theorem exec_live_of_run {s : State} {i : Instr} (h : s.phase = .run) (hc : decodeCmd s.opr = i) :
    mapNext State.live (exec i s.live) = mapNext State.live (exec i s) := by
  obtain ⟨t, ht⟩ := exec_next i s
  rw [State.live_run h hc, exec_forCommand i h, ht, mapNext_next, mapNext_next, mapNext_next,
    State.live_forCommand (by rw [exec_opr_of_run i h ht, hc])]

theorem codecTurn_live (s : State) : mapNext State.live (codecTurn s.live) = mapNext State.live (codecTurn s) := by
  rcases codecTurn_cases s with ⟨hidle, hs⟩ | ⟨hrun, hs⟩
  · have hl : codecTurn s.live = .next s.live := by simp only [codecTurn, show s.live.phase = .idle from hidle]
    rw [hs, hl, mapNext_next, mapNext_next, State.live_live]
  · have hl : codecTurn s.live = exec (decodeCmd s.opr) s.live := by
      simp only [codecTurn, show s.live.phase = .run from hrun]
      rfl
    rw [hs, hl, exec_live_of_run hrun rfl]

theorem writeCmd_live (c : CmdCode) (s : State) :
    mapNext State.live (writeCmd c s.live) = mapNext State.live (writeCmd c s) := by
  rcases writeCmd_cases c s with ⟨hidle, hs⟩ | ⟨hrun, hs⟩
  · have hl : writeCmd c s.live = exec (decodeCmd c) s.live := by
      simp only [writeCmd, show s.live.phase = .idle from hidle]
    rw [hs, hl, exec_live_of_idle _ hidle]
  · have hl : writeCmd c s.live = .next s.live := by simp only [writeCmd, show s.live.phase = .run from hrun]
    rw [hs, hl, mapNext_next, mapNext_next, State.live_live]

/-! ### The host -/

/-- No value the host can read comes from a working register. -/
theorem hostRead_live (r : HostReg) (s : State) :
    mapNext State.live (hostRead r s.live) = mapNext State.live (hostRead r s) := by
  have hbusy : busyRead s.live r = busyRead s r := by cases r <;> rfl
  have hidle : idleRead s.live r = idleRead s r := by cases r <;> rfl
  have hl : s.live.busy = s.busy := rfl
  cases hb : s.busy with
  | true =>
    rw [hostRead, hostRead, hl, hb, hbusy, if_pos rfl, if_pos rfl, mapNext_next, mapNext_next]
    exact congrArg (fun t => Host.Outcome.next (State.withHost t _ _ _)) (State.live_live s)
  | false =>
    rw [hostRead, hostRead, hl, hb, hidle, if_neg Bool.false_ne_true, if_neg Bool.false_ne_true, mapNext_next,
      mapNext_next]
    exact congrArg (fun t => Host.Outcome.next (State.withHost t _ _ _)) (State.live_live s)

theorem idleWrite_withWork (s : State) (x : Work) (w : HostWrite) :
    idleWrite (s.withWork x) w = (idleWrite s w).withWork x := by
  cases w with
  | bmag v =>
    rw [idleWrite, idleWrite, apply_ite (State.withWork · x)]
    rfl
  | len v =>
    rw [idleWrite, idleWrite, apply_ite (State.withWork · x)]
    rfl
  | _ => rfl

theorem hostWrite_live (w : HostWrite) (s : State) :
    mapNext State.live (hostWrite w s.live) = mapNext State.live (hostWrite w s) := by
  have hl : s.live.busy = s.busy := rfl
  cases hb : s.busy with
  | true =>
    rw [hostWrite, hostWrite, hl, hb, if_pos rfl, if_pos rfl, mapNext_next, mapNext_next, State.live_live]
  | false =>
    have hp := State.busy_eq_false.1 hb
    have hp' : (idleWrite s w).phase = .idle := (idleWrite_status s w).1.trans hp
    rw [hostWrite, hostWrite, hl, hb, if_neg Bool.false_ne_true, if_neg Bool.false_ne_true, mapNext_next, mapNext_next,
      State.live_idle hp, idleWrite_withWork, State.live_idle hp',
      State.live_idle (s := (idleWrite s w).withWork {}) hp']
    rfl

theorem hostTurn_live (a : HostAction) (s : State) :
    mapNext State.live (hostTurn a s.live) = mapNext State.live (hostTurn a s) := by
  cases a with
  | rst => rfl
  | write w => exact hostWrite_live w s
  | cmd c => exact writeCmd_live c s
  | read r => exact hostRead_live r s
  | pass => exact codecTurn_live s
  | wait =>
    have again := codecTurn_live { s with agenda := .wait :: s.agenda }
    have hl : s.live.done = s.done := rfl
    rw [hostTurn, hostTurn, hl]
    split
    · rw [mapNext_next, mapNext_next, State.live_live]
    · exact again

theorem step_live (s : State) : mapNext State.live (step s.live) = mapNext State.live (step s) := by
  have hl : s.live.agenda = s.agenda := rfl
  rw [step, step, turn, turn, hl]
  split
  · exact codecTurn_live s
  case h_2 a rest _ => exact hostTurn_live a { s with agenda := rest }

/-! ### Runs -/

/-- R188: a step always answers. -/
theorem step_next (s : State) : ∃ t, step s = .next t := by
  have hturn : ∀ u : State, ∃ t, codecTurn u = .next t := fun u => by
    rcases codecTurn_cases u with ⟨-, hu⟩ | ⟨-, hu⟩
    · exact ⟨_, hu⟩
    · exact hu ▸ exec_next _ u
  rcases step_cases s with ⟨-, hs⟩ | ⟨rest, -, hs⟩ | ⟨w, rest, -, hs⟩ | ⟨c, rest, -, hs⟩ | ⟨r, rest, -, hs⟩ |
    ⟨rest, -, -, hs⟩ | ⟨rest, -, -, hs⟩ | ⟨rest, -, hs⟩
  · exact hs ▸ hturn s
  · exact ⟨_, hs⟩
  · exact ⟨_, hs⟩
  · rcases writeCmd_cases c { s with agenda := rest } with ⟨-, hw⟩ | ⟨-, hw⟩
    · exact hs ▸ hw ▸ exec_next _ _
    · exact ⟨_, hs.trans hw⟩
  · exact ⟨_, hs⟩
  · exact ⟨_, hs⟩
  · exact hs ▸ hturn s
  · exact hs ▸ hturn _

/-- States with equal live parts step to states with equal live parts. -/
theorem step_live_eq {s s' t t' : State} (h : s.live = s'.live) (ht : step s = .next t) (ht' : step s' = .next t') :
    t.live = t'.live := by
  have hmap : mapNext State.live (.next t) = mapNext State.live (.next t') := by
    rw [← ht, ← ht', ← step_live s, h, step_live s']
  exact Host.Outcome.next.inj hmap

theorem steps_live_eq (k : Nat) : ∀ {s s' : State}, s.live = s'.live →
    ∃ t t', steps k s = .next t ∧ steps k s' = .next t' ∧ t.live = t'.live := by
  induction k with
  | zero => exact fun {s s'} h => ⟨s, s', rfl, rfl, h⟩
  | succ k ih =>
    intro s s' h
    obtain ⟨t, ht⟩ := step_next s
    obtain ⟨t', ht'⟩ := step_next s'
    rw [steps_succ_next ht, steps_succ_next ht']
    exact ih (step_live_eq h ht ht')

/-- Settles O46: in `IDLE` no working register is live, so the two machines start with equal live parts. -/
theorem workingRegistersUnobservable : Obligations.WorkingRegistersUnobservable := by
  intro k s s' hp h
  have hp' : s'.phase = .idle := (congrArg State.phase h).symm.trans hp
  obtain ⟨t, t', ht, ht', hlive⟩ := steps_live_eq k (s := s) (s' := s') (by
    rwa [State.live_idle hp, State.live_idle hp'])
  exact ⟨t, t', ht, ht', by rw [← State.live_withoutWork t, hlive, State.live_withoutWork]⟩

end Sys2Proof.Machine
end

section
/-! PROOFS. The registers by number (R36, R58), `STATUS` (R25), and what one host action does (R36 to R38). -/

namespace Sys2Proof.Machine

/-! ### Numbers and STATUS -/

/-- A number and a register name each other, the cell index given. -/
theorem HostReg.ofNumber_number (r : HostReg) (i : Nat) (h : ∀ j, r = .buf j → j = i) :
    HostReg.ofNumber r.number i = r := by
  cases r with
  | buf j => rw [h j rfl]; rfl
  | other k => rw [HostReg.number, Nat.add_comm]; rfl
  | _ => rfl

theorem HostReg.number_ofNumber (num i : Nat) : (HostReg.ofNumber num i).number = num := by
  match num with
  | 0 | 1 | 2 | 3 | 4 | 5 | 6 => rfl
  | k + 7 => exact Nat.add_comm 7 k

/-- R58. -/
theorem HostReg.ofNumber_other (num i : Nat) : 6 < num ↔ ∃ k, HostReg.ofNumber num i = .other k := by
  constructor
  · intro h
    obtain ⟨k, rfl⟩ := Nat.exists_eq_add_of_le' (show 7 ≤ num from h)
    exact ⟨k, rfl⟩
  · rintro ⟨k, hk⟩
    have hnum := HostReg.number_ofNumber num i
    rw [hk, HostReg.number] at hnum
    omega

/-- Settles O3: the table of R36 read both ways. -/
theorem registerNumbersNameRegisters : Obligations.RegisterNumbersNameRegisters :=
  ⟨⟨rfl, rfl, rfl, rfl, rfl, rfl, fun _ => rfl⟩, fun _ => ⟨rfl, rfl, rfl, rfl, rfl, rfl, rfl⟩,
    HostReg.ofNumber_number, HostReg.number_ofNumber, HostReg.ofNumber_other⟩

/-- The three fields of `STATUS` side by side, in arithmetic. -/
theorem statusWord_toNat (c : BitVec 2) (d b : Bool) :
    (c ++ BitVec.ofBool d ++ BitVec.ofBool b).toNat = 4 * c.toNat + 2 * d.toNat + b.toNat := by
  revert c d b
  decide

/-- Settles O24: `STATUS` is three fields side by side, and `BUSY` is `PHASE = RUN`. -/
theorem statusLayout : Obligations.StatusLayout := by
  refine ⟨fun s => ?_, rfl, rfl, rfl, rfl⟩
  have hbusy : s.busy.toNat = if s.phase = .run then 1 else 0 := by cases h : s.phase <;> simp [State.busy, h]
  rw [State.status, statusWord_toNat, hbusy]

/-! ### One host action (R181) -/

theorem step_write (s : State) (w : HostWrite) (rest : List HostAction) :
    step { s with agenda := .write w :: rest } = hostWrite w { s with agenda := rest } := rfl

theorem step_read (s : State) (r : HostReg) (rest : List HostAction) :
    step { s with agenda := .read r :: rest } = hostRead r { s with agenda := rest } := rfl

theorem step_write_of_idle {s : State} (h : s.phase = .idle) (w : HostWrite) (rest : List HostAction) :
    step { s with agenda := .write w :: rest } = .next (idleWrite { s with agenda := rest } w) := by
  have hb : State.busy { s with agenda := rest } = false := State.busy_eq_false.2 h
  rw [step_write, hostWrite, hb]
  rfl

theorem step_read_of_idle {s : State} (h : s.phase = .idle) (r : HostReg) (rest : List HostAction) :
    step { s with agenda := .read r :: rest } =
      .next { s with agenda := rest, seen := (r, idleRead { s with agenda := rest } r) :: s.seen } := by
  have hb : State.busy { s with agenda := rest } = false := State.busy_eq_false.2 h
  rw [step_read, hostRead, hb]
  rfl

/-- Settles O27: a host write in `IDLE` is `idleWrite`, read off register by register. -/
theorem idleHostWrites : Obligations.IdleHostWrites := by
  intro s rest hp wr s0
  have hwr : ∀ w, wr w = .next (idleWrite s0 w) := fun w => step_write_of_idle hp w rest
  simp only [hwr]
  refine ⟨fun v => rfl, fun v => rfl, fun v => rfl, fun v hv => ?_, fun v hv => ?_, fun v hv => ?_, fun v hv => ?_,
    fun i b hi => ?_, fun i b hi => ?_, fun k v => rfl⟩
  · exact congrArg _ (if_pos hv)
  · exact ⟨_, _, Capacity.admits_bitlen_lowBits _ _, congrArg _ (if_neg (ne_true_of_eq_false hv))⟩
  · exact congrArg _ (if_pos hv)
  · exact congrArg _ (if_neg (ne_true_of_eq_false hv))
  · exact ⟨_, rfl, rfl, State.memRead_memWrite_same (s := s0) b hi, fun j hj => s0.memRead_memWrite_ne b hj⟩
  · exact congrArg _ (State.memWrite_absent (s := s0) b hi)

/-- Settles O28: a host read in `IDLE` returns `idleRead`. -/
theorem idleHostReads : Obligations.IdleHostReads := by
  intro s rest hp rd got
  have hrd : ∀ r, rd r = got r (idleRead { s with agenda := rest } r) := fun r => step_read_of_idle hp r rest
  exact ⟨hrd _, hrd _, hrd _, hrd _, hrd _, hrd _, fun i => hrd _, fun k => hrd _⟩

/-- Settles O29: in `RUN` a write of `CMD` and any other write are ignored, and a read returns `busyRead`. -/
theorem busyHostAccesses : Obligations.BusyHostAccesses := by
  intro s rest hp
  have hb : State.busy { s with agenda := rest } = true := State.busy_eq_true.2 hp
  refine ⟨fun c => ?_, fun w => ?_, fun r => ⟨busyRead s r, s.draws + 1, ?_, ?_, ?_, ?_⟩⟩
  · show writeCmd c { s with agenda := rest } = _
    rw [writeCmd, hp]
  · rw [step_write, hostWrite, hb]
    rfl
  · have hsame : busyRead { s with agenda := rest } r = busyRead s r := by cases r <;> rfl
    rw [step_read, hostRead, hb, hsame]
    rfl
  · rintro rfl
    rfl
  · rintro rfl
    rfl
  · rintro k rfl
    rfl

/-! ### Reset (R38) -/

/-- Settles O30: a reset is `State.assertReset`, in both phases. -/
theorem resetTakesResetValues : Obligations.ResetTakesResetValues := by
  refine ⟨fun s rest h => ?_, rfl, rfl, rfl, rfl, rfl, rfl, rfl, rfl⟩
  have hs : step s = .next (State.assertReset { s with agenda := rest }) := by rw [step, turn, h]; rfl
  exact ⟨_, hs, rfl, rfl, rfl, rfl, rfl, rfl, rfl, rfl, fun _ => rfl, rfl, rfl, rfl⟩

end Sys2Proof.Machine
end

section
/-! PROOFS. The memory of a running command: what a written command word starts (R63, R172), that the codec's accesses
are to existing cells (R53, R54), and that a decoder reads no group after the one that ends its sequence (R55). -/

namespace Sys2Proof.Machine

/-! ### A written command word (R172) -/

/-- R172: a write of `CMD` in `IDLE` is the start step of the command that the word names. -/
theorem step_cmd_of_idle {s : State} (h : s.phase = .idle) (c : CmdCode) (rest : List HostAction) :
    step { s with agenda := .cmd c :: rest } = exec (decodeCmd c) { s with agenda := rest } := by
  show writeCmd c { s with agenda := rest } = _
  rw [writeCmd, h]

/-- R76: the word of an instruction, as a row of the table, is read back as that instruction. -/
theorem decodeTableWord_encode (i : Instr) : decodeTableWord 8 (encode i).toNat = some i := by
  cases i <;> decide

theorem State.withFetchWord_encode (s : State) (i : Instr) :
    s.withFetchWord 8 (encode i).toNat = { s with phase := .idle, agenda := .cmd (encode i) :: s.agenda } := by
  rw [State.withFetchWord, decodeTableWord_encode]

/-- Settles O7: the placed word is a write of `CMD` in `IDLE`, and the rest of the agenda is as it was. -/
theorem fetchWordRunsInstr : Obligations.FetchWordRunsInstr := by
  intro i s
  rw [State.withFetchWord_encode, step_cmd_of_idle (s := { s with phase := .idle }) rfl, decodeCmd_encode]

/-! ### Accesses to existing cells (R53, R54) -/

/-- Settles O34: the invariant keeps `encodeU64` to ten groups, `encodeBigSigned` to `SIZE div 7 + 1`, and `LEN` to
`BUFCAP`; by R7 the buffer has room for each. -/
theorem codecAccessesExistingCells : Obligations.CodecAccessesExistingCells := by
  rintro s h hp (hc | hc | hlen)
  · obtain ⟨-, hidx⟩ : encodingU64 s := (commandOk_encodeU64 hc).1 (h.running hp)
    exact Capacity.admits_mono (Config.admits_ten h.cfgOk) (Nat.succ_le_succ hidx)
  · obtain ⟨hsize, -, hidx, -, -⟩ : encodingBig s := (commandOk_encodeBigSigned hc).1 (h.running hp)
    exact Capacity.admits_mono (Config.admits_groups h.cfgOk (hsize ▸ h.bmagOk)) (Nat.succ_le_succ hidx)
  · exact Capacity.admits_mono h.lenOk hlen

/-! ### A decoder beside another buffer -/

/-- The same machine with another buffer and another `LEN`. -/
def State.withBuffer (s : State) (buf : Memory) (len : Nat) : State := { s with buf := buf, len := len }

/-- `s` and `s` with another buffer and `LEN` hold, below both `LEN`s, the same groups up to the first whose
continuation bit is clear, at index `c`. -/
structure SameGroups (s : State) (buf : Memory) (len c : Nat) : Prop where
  below  : c < s.len
  below' : c < len
  agree  : ∀ j ≤ c, (s.withBuffer buf len).memRead j = s.memRead j
  more   : ∀ j < c, Group.cont (s.memRead j) = true
  last   : Group.cont (s.memRead c) = false

section
variable {i : Instr} {s t : State} {buf : Memory} {len c : Nat} (hi : i = .decodeU64 ∨ i = .decodeBigSigned)

/-- What the new buffer reads as depends on the old state by `epoch` only. -/
theorem State.withBuffer_memRead_congr (h : t.epoch = s.epoch) (j : Nat) :
    (t.withBuffer buf len).memRead j = (s.withBuffer buf len).memRead j := by
  simp only [State.memRead, State.withBuffer, h]

theorem startStep_withBuffer (i : Instr) (s : State) (buf : Memory) (len : Nat) :
    startStep i (s.withBuffer buf len) = (startStep i s).withBuffer buf len := by
  cases i <;> rfl

include hi in
/-- R55: a decoder's step stores nothing. -/
theorem sameGroups_exec (h : SameGroups s buf len c) (ht : exec i s = .next t) : SameGroups t buf len c := by
  obtain ⟨⟨-, hlen, -⟩, ⟨hepoch, -⟩, hmem, -⟩ := decoderStepFrame i s t hi ht
  refine ⟨hlen ▸ h.below, h.below', fun j hj => ?_, fun j hj => hmem j ▸ h.more j hj, hmem c ▸ h.last⟩
  rw [State.withBuffer_memRead_congr hepoch, h.agree j hj, hmem]

include hi in
/-- R102, R137: a decoder's iteration looks at the buffer in cell `IDX` only, and at `LEN` only to see that it is
above `IDX`. -/
theorem exec_withBuffer (hp : s.phase = .run) (h : SameGroups s buf len c) (hidx : s.idx ≤ c) :
    exec i (s.withBuffer buf len) = mapNext (State.withBuffer · buf len) (exec i s) := by
  have hp' : (s.withBuffer buf len).phase = .run := hp
  have hlen : ¬ s.len ≤ s.idx := (hidx.trans_lt h.below).not_ge
  have hlen' : ¬ (s.withBuffer buf len).len ≤ (s.withBuffer buf len).idx := (hidx.trans_lt h.below').not_ge
  have hread : (s.withBuffer buf len).memRead (s.withBuffer buf len).idx = s.memRead s.idx := h.agree s.idx hidx
  rcases hi with rfl | rfl
  · rw [exec_decodeU64_run hp, exec_decodeU64_run hp', iterDecodeU64, iterDecodeU64]
    simp only [if_neg hlen, if_neg hlen', hread, apply_ite (mapNext _), mapNext_next,
      apply_ite (State.withBuffer · buf len)]
    rfl
  · rw [exec_decodeBigSigned_run hp, exec_decodeBigSigned_run hp', iterDecodeBigSigned, iterDecodeBigSigned]
    simp only [if_neg hlen, if_neg hlen', hread, apply_ite (mapNext _), mapNext_next]
    rfl

include hi in
/-- R102, R137, R175, R193: a decoder's iteration ends the command or has read a group that is not the last. -/
theorem exec_decoder_ends_or_continues (hp : s.phase = .run) (ht : exec i s = .next t) :
    (t.phase = .idle ∧ t.done = true) ∨
    (Group.cont (s.memRead s.idx) = true ∧ t.phase = .run ∧ t.idx = s.idx + 1) := by
  rcases hi with rfl | rfl
  · rw [exec_decodeU64_run hp] at ht
    rcases iterDecodeU64_inv ht with ⟨f, rfl⟩ | ⟨-, hcont, rfl⟩ | rfl
    · exact .inl ⟨rfl, rfl⟩
    · exact .inr ⟨hcont, hp, rfl⟩
    · exact .inl ⟨rfl, rfl⟩
  · rw [exec_decodeBigSigned_run hp] at ht
    rcases iterDecodeBigSigned_inv ht with ⟨f, rfl⟩ | ⟨-, hcont, rfl⟩ | ⟨-, rfl⟩
    · exact .inl ⟨rfl, rfl⟩
    · exact .inr ⟨hcont, hp, rfl⟩
    · exact .inl ⟨rfl, rfl⟩

end

/-! ### Runs of a decoder (R55, R104, R146) -/

theorem step_of_no_agenda {s : State} (h : s.agenda = []) : step s = codecTurn s := by
  rw [step, turn, h]

/-- R174: with no host action left, a step in `RUN` is the iteration that `OPR` selects. -/
theorem step_of_run {s : State} (h : s.agenda = []) (hp : s.phase = .run) : step s = exec (decodeCmd s.opr) s := by
  rw [step_of_no_agenda h, codecTurn, hp]

/-- R170: with no host action left, an idle block stays as it is. -/
theorem steps_of_idle {s : State} (h : s.agenda = []) (hp : s.phase = .idle) (k : Nat) : steps k s = .next s := by
  induction k with
  | zero => rfl
  | succ k ih =>
    have hs : step s = .next s := by rw [step_of_no_agenda h, codecTurn, hp]
    rw [steps_succ_next hs, ih]

/-- R173: the step after `State.issue` is the start of the issued command. -/
theorem step_issue {s : State} (h : s.phase = .idle) (i : Instr) :
    step (s.issue i) = .next (startStep i { s with agenda := [] }) := by
  rw [State.issue, step_cmd_of_idle h, decodeCmd_encode, exec_of_idle i (s := { s with agenda := [] }) h]

/-- A decoder that has not passed group `c` ends at it or before, alike with both buffers. -/
theorem steps_decoder_withBuffer {i : Instr} {buf : Memory} {len c : Nat} (hi : i = .decodeU64 ∨ i = .decodeBigSigned)
    (k : Nat) : ∀ {s : State}, s.agenda = [] → s.phase = .run → decodeCmd s.opr = i → s.idx ≤ c →
      s.idx + k = c + 1 → SameGroups s buf len c →
      ∃ t, steps k s = .next t ∧ t.phase = .idle ∧ t.done = true ∧
        steps k (s.withBuffer buf len) = .next (t.withBuffer buf len) := by
  induction k with
  | zero => intro s _ _ _ hidx hk _; omega
  | succ k ih =>
    intro s ha hp hc hidx hk h
    obtain ⟨t, ht⟩ := exec_next i s
    have hs : step s = .next t := by rw [step_of_run ha hp, hc, ht]
    have hs' : step (s.withBuffer buf len) = .next (t.withBuffer buf len) := by
      rw [step_of_run (s := s.withBuffer buf len) ha hp, show decodeCmd (s.withBuffer buf len).opr = i from hc,
        exec_withBuffer hi hp h hidx, ht, mapNext_next]
    obtain ⟨-, ⟨-, -, hagenda, -⟩, -⟩ := decoderStepFrame i s t hi ht
    have ha' : t.agenda = [] := hagenda.trans ha
    rw [steps_succ_next hs, steps_succ_next hs']
    rcases exec_decoder_ends_or_continues hi hp ht with ⟨hidle, hdone⟩ | ⟨hcont, hrun, hnext⟩
    · exact ⟨t, steps_of_idle ha' hidle k, hidle, hdone, steps_of_idle (s := t.withBuffer buf len) ha' hidle k⟩
    · have hne : s.idx ≠ c := fun he => by rw [he, h.last] at hcont; cases hcont
      have hc' : decodeCmd t.opr = i := by rw [exec_opr_of_run i hp ht, hc]
      exact ih ha' hrun hc' (by omega) (by omega) (sameGroups_exec hi h ht)

/-- Settles O48: the start copies neither buffer nor `LEN`, and each iteration up to group `c` reads a cell that the
two buffers agree on. -/
theorem decoderReadsNoFurther : Obligations.DecoderReadsNoFurther := by
  intro i s buf len c s' hi hp hlen hlen' hagree hmore hlast
  have hgroups : SameGroups { s with agenda := [] } buf len c := ⟨hlen, hlen', hagree, hmore, hlast⟩
  have hstart : exec i { s with agenda := [] } = .next (startStep i { s with agenda := [] }) := exec_of_idle i hp
  obtain ⟨-, ⟨-, -, hagenda, -⟩, -⟩ := decoderStepFrame i _ _ hi hstart
  have hs' : step (s'.issue i) = .next ((startStep i { s with agenda := [] }).withBuffer buf len) :=
    (step_issue (s := s') hp i).trans (congrArg _ (startStep_withBuffer i { s with agenda := [] } buf len))
  rw [steps_succ_next (step_issue hp i), steps_succ_next hs']
  exact steps_decoder_withBuffer hi (c + 1) hagenda (startStep_phase i _) (decodeCmd_startStep i _)
    (by simp) (by simp) (sameGroups_exec hi hgroups hstart)

end Sys2Proof.Machine
end

section
/-! PROOFS. What is written down: the command words (R76, R77), the writes of a host program's lines (R82), and the
order in which the lines are performed (R82, R181). -/

namespace Sys2Proof.Machine

/-! ### Command words (R76) -/

theorem encode_decodeCmd (c : CmdCode) : encode (decodeCmd c) = c := by
  revert c
  decide

/-- Settles O1: the table of R76 read both ways; `kind` and `dir` are looked up command by command. -/
theorem commandTable : Obligations.CommandTable :=
  ⟨⟨rfl, rfl, rfl, rfl⟩, fun i => by cases i <;> rfl, fun i => by cases i <;> rfl, fun i _ => decodeCmd_encode i,
    encode_decodeCmd⟩

theorem decodeByte_of_lt {b : Byte} (h : b.toNat < 4) : decodeByte b = .ok (decodeCmd (b.setWidth 2)) := if_pos h

theorem decodeByte_of_ge {b : Byte} (h : 4 ≤ b.toNat) : decodeByte b = .error .widerThanCmd2 := if_neg h.not_gt

theorem decodeByte_encodeByte (i : Instr) : decodeByte (encodeByte i) = .ok i := by
  cases i <;> rfl

/-- A row of the table is decoded as its one byte; what a byte does not hold is no command word. -/
theorem decodeTableWord_eight (w : Nat) :
    decodeTableWord 8 w = if w < 4 then some (decodeCmd (BitVec.ofNat 2 w)) else none := by
  by_cases hbyte : w < 256
  case neg =>
    rw [decodeTableWord, if_neg (fun h => hbyte h.2), if_neg (by omega)]
  case pos =>
    have hw : (BitVec.ofNat 8 w).toNat = w := Nat.mod_eq_of_lt hbyte
    rw [decodeTableWord, if_pos ⟨le_rfl, hbyte⟩, bytesOfNat, decodeBytes]
    by_cases hcmd : w < 4
    · have hlow : (BitVec.ofNat 8 w).setWidth 2 = BitVec.ofNat 2 w := BitVec.setWidth_ofNat_of_le (by norm_num) w
      rw [decodeByte_of_lt (hw.symm ▸ hcmd), if_pos hcmd, hlow]
    · rw [decodeByte_of_ge (hw.symm ▸ Nat.le_of_not_lt hcmd), if_neg hcmd]

/-- Settles O2: rows and bytes below 4 are the command words, every other byte is refused (log entry 10). -/
theorem commandWordsAreTwoBits : Obligations.CommandWordsAreTwoBits :=
  ⟨decodeTableWord_eight, fun _ => decodeByte_of_ge, fun i rest => by rw [decodeBytes, decodeByte_encodeByte]⟩

/-! ### Lines of a host program (R82) -/

/-- The line that writes `x`: what `HostAction.encoding` is undone by. -/
def RegWrite.line (x : RegWrite) : HostAction :=
  match HostReg.ofNumber x.num (x.cell.getD 0) with
  | .cmd => .cmd (BitVec.ofNat 2 x.value)
  | .status => .write (.status (BitVec.ofNat 4 x.value))
  | .val => .write (.val (BitVec.ofNat 64 x.value))
  | .bsign => .write (.bsign (x.value == 1))
  | .bmag => .write (.bmag x.value)
  | .len => .write (.len x.value)
  | .buf i => .write (.buf i (BitVec.ofNat 8 x.value))
  | .other k => .write (.other k x.value)

/-- The register of a write is named by its number and cell index. -/
theorem HostReg.ofNumber_number_cellIndex (r : HostReg) : HostReg.ofNumber r.number (r.cellIndex.getD 0) = r :=
  r.ofNumber_number _ fun j hj => by rw [hj]; rfl

/-- A write of a register is read back from its number, cell index and value. -/
theorem RegWrite.line_write (w : HostWrite) :
    RegWrite.line ⟨w.reg.number, w.reg.cellIndex, w.value⟩ = .write w := by
  rw [RegWrite.line, HostReg.ofNumber_number_cellIndex]
  cases w with
  | bsign v => cases v <;> rfl
  | _ => simp [HostWrite.reg, HostWrite.value]

theorem RegWrite.line_cmd (c : CmdCode) :
    RegWrite.line ⟨HostReg.cmd.number, HostReg.cmd.cellIndex, c.toNat⟩ = .cmd c := by
  rw [RegWrite.line, HostReg.ofNumber_number_cellIndex]
  simp

theorem RegWrite.line_of_encoding {a : HostAction} {x : RegWrite} (h : a.encoding = some x) : x.line = a := by
  cases a with
  | write w => cases h; exact RegWrite.line_write w
  | cmd c => cases h; exact RegWrite.line_cmd c
  | _ => cases h

theorem HostAction.encoding_eq_none (a : HostAction) :
    a.encoding = none ↔ a = .rst ∨ a = .wait ∨ a = .pass ∨ ∃ r, a = .read r := by
  cases a <;> simp [HostAction.encoding]

theorem HostAction.encoding_injective {a b : HostAction} (h : a.encoding = b.encoding) (ha : a.encoding ≠ none) :
    a = b := by
  obtain ⟨x, hx⟩ := Option.ne_none_iff_exists'.1 ha
  rw [← RegWrite.line_of_encoding hx, RegWrite.line_of_encoding (h ▸ hx)]

theorem programEncoding_cons (a : HostAction) (rest : List HostAction) :
    programEncoding (a :: rest) = a.encoding.toList ++ programEncoding rest := by
  rw [programEncoding, List.filterMap_cons]
  cases a.encoding <;> rfl

/-- Settles O4: each line's write is its definition; a line is read back from what it writes. -/
theorem HostAction.programEncoding : Obligations.ProgramEncoding :=
  ⟨fun _ => rfl, fun _ => rfl, fun _ => rfl, fun _ => rfl, fun _ => rfl, fun _ => rfl, fun _ _ => rfl, fun _ _ => rfl,
    HostAction.encoding_eq_none, fun _ _ => HostAction.encoding_injective, rfl, programEncoding_cons⟩

/-! ### The agenda (R82, R181) -/

/-- R177: a command's step leaves the host's agenda alone, since it commutes with a change of host. -/
theorem exec_agenda {i : Instr} {s t : State} (h : exec i s = .next t) : t.agenda = s.agenda := by
  have hhost : exec i s = mapNext (fun t => t.withHost s.agenda s.seen s.draws) (exec i s) :=
    commandIgnoresHost i s s.agenda s.seen s.draws
  rw [h, mapNext_next] at hhost
  rw [Host.Outcome.next.inj hhost, State.withHost_agenda]

theorem codecTurn_agenda {s t : State} (h : codecTurn s = .next t) : t.agenda = s.agenda := by
  rcases codecTurn_cases s with ⟨-, hs⟩ | ⟨-, hs⟩ <;> rw [hs] at h
  · cases h
    rfl
  · exact exec_agenda h

theorem writeCmd_agenda {c : CmdCode} {s t : State} (h : writeCmd c s = .next t) : t.agenda = s.agenda := by
  rcases writeCmd_cases c s with ⟨-, hs⟩ | ⟨-, hs⟩ <;> rw [hs] at h
  · exact exec_agenda h
  · cases h
    rfl

theorem hostRead_agenda {r : HostReg} {s t : State} (h : hostRead r s = .next t) : t.agenda = s.agenda := by
  rcases hostRead_cases r s with ⟨-, hs⟩ | ⟨-, hs⟩ <;> rw [hs] at h <;> cases h <;> rfl

theorem idleWrite_agenda (s : State) (w : HostWrite) : (idleWrite s w).agenda = s.agenda := by
  cases w with
  | bmag v => simp only [idleWrite]; split <;> rfl
  | len v => simp only [idleWrite]; split <;> rfl
  | _ => rfl

theorem hostWrite_agenda {w : HostWrite} {s t : State} (h : hostWrite w s = .next t) : t.agenda = s.agenda := by
  rcases hostWrite_cases w s with ⟨-, hs⟩ | ⟨-, hs⟩ <;> rw [hs] at h <;> cases h
  · rfl
  · exact idleWrite_agenda s w

/-- What a step leaves of the agenda: everything where it is empty or a `WAIT` goes on, the rest otherwise. -/
theorem step_agenda {s t : State} (h : step s = .next t) :
    (s.agenda = [] ∧ t.agenda = []) ∨
    ∃ a rest, s.agenda = a :: rest ∧ t.agenda = if a = .wait ∧ s.done = false then s.agenda else rest := by
  rcases step_cases s with ⟨ha, hs⟩ | ⟨rest, ha, hs⟩ | ⟨w, rest, ha, hs⟩ | ⟨c, rest, ha, hs⟩ | ⟨r, rest, ha, hs⟩ |
    ⟨rest, ha, hd, hs⟩ | ⟨rest, ha, hd, hs⟩ | ⟨rest, ha, hs⟩ <;> rw [hs] at h
  · exact .inl ⟨ha, (codecTurn_agenda h).trans ha⟩
  · cases h
    exact .inr ⟨_, rest, ha, rfl⟩
  · exact .inr ⟨_, rest, ha, hostWrite_agenda h⟩
  · exact .inr ⟨_, rest, ha, writeCmd_agenda h⟩
  · exact .inr ⟨_, rest, ha, hostRead_agenda h⟩
  · cases h
    exact .inr ⟨_, rest, ha, by simp [hd]⟩
  · exact .inr ⟨_, rest, ha, by simp [hd, codecTurn_agenda h]⟩
  · exact .inr ⟨_, rest, ha, codecTurn_agenda h⟩

/-- Settles O9: a step takes the first action off or, for a `WAIT` that goes on, leaves the agenda. -/
theorem hostActsInOrder : Obligations.HostActsInOrder := by
  intro s t h
  rcases step_agenda h with ⟨ha, ht⟩ | ⟨a, rest, ha, ht⟩
  · exact ⟨fun _ => ht, fun a rest h' => by simp [ha] at h'⟩
  · refine ⟨fun h' => by simp [ha] at h', fun a' rest' h' => ?_⟩
    cases ha.symm.trans h'
    exact ht

end Sys2Proof.Machine
end

section
/-! PROOFS. Byte sequences as values (R71 to R75): the groups of an integer, what they add up to, and how many groups
an integer needs (R80, R81). -/

namespace Sys2Proof.Machine

/-! ### How many groups a value needs (R80, R81) -/

/-- R80: `unsignedLen v` is the least number of groups, at least one, that hold `v`. -/
theorem unsignedLen_le_iff {v k : Nat} (hk : 1 ≤ k) : unsignedLen v ≤ k ↔ v < 2 ^ (7 * k) := by
  rw [← bitlen_le_iff, unsignedLen]
  omega

theorem one_le_unsignedLen (v : Nat) : 1 ≤ unsignedLen v := le_max_left _ _

theorem bitlen_two_pow (k : Nat) : bitlen (2 ^ k) = k + 1 := by
  rw [bitlen, if_neg (Nat.two_pow_pos k).ne', Nat.log2_two_pow]

/-- R75: `n` fits `k` groups when its magnitude has at most `7k - 1` bits, or is `2^(7k-1)` with a minus sign. -/
theorem fitsGroups_iff_bitlen (n : Int) (k : Nat) :
    fitsGroups n k ↔ bitlen n.natAbs ≤ 7 * k - 1 ∨ (n < 0 ∧ n.natAbs = 2 ^ (7 * k - 1)) := by
  have hpow : ((2 ^ (7 * k - 1) : Nat) : Int) = (2 : Int) ^ (7 * k - 1) := by norm_cast
  rw [fitsGroups, bitlen_le_iff, ← hpow]
  omega

/-- R81: the formula's number of groups. -/
def signedLen (n : Int) : Nat :=
  if n < 0 ∧ n.natAbs = 2 ^ (bitlen n.natAbs - 1) then (bitlen n.natAbs + 6) / 7 else bitlen n.natAbs / 7 + 1

theorem one_le_signedLen (n : Int) : 1 ≤ signedLen n := by
  rw [signedLen]
  split
  case isTrue h =>
    have := bitlen_pos (m := n.natAbs) (by omega)
    omega
  case isFalse => omega

/-- R81: `n` fits `k` groups exactly when `k` is at least the formula's number. A negative power of two needs one bit
less than every other value of its bit length. -/
theorem fitsGroups_iff_signedLen_le {n : Int} {k : Nat} (hk : 1 ≤ k) : fitsGroups n k ↔ signedLen n ≤ k := by
  have hpow : n.natAbs = 2 ^ (7 * k - 1) → bitlen n.natAbs = 7 * k := fun h => by rw [h, bitlen_two_pow]; omega
  rw [fitsGroups_iff_bitlen, signedLen]
  split
  case isTrue h =>
    obtain ⟨hneg, hmag⟩ := h
    have hpos := bitlen_pos (m := n.natAbs) (by omega)
    have hexact : bitlen n.natAbs = 7 * k → n.natAbs = 2 ^ (7 * k - 1) := fun hb => hb ▸ hmag
    omega
  case isFalse h =>
    have hnot : ¬ (n < 0 ∧ n.natAbs = 2 ^ (7 * k - 1)) := fun ⟨hneg, hmag⟩ => h ⟨hneg, by rw [hpow hmag, hmag]⟩
    omega

theorem leastGroups_signedLen (n : Int) : leastGroups n (signedLen n) :=
  ⟨one_le_signedLen n, (fitsGroups_iff_signedLen_le (one_le_signedLen n)).2 le_rfl,
    fun _ hj hlt hfit => ((fitsGroups_iff_signedLen_le hj).1 hfit).not_gt hlt⟩

/-- The least number of groups is at most that of any sequence the value fits. -/
theorem leastGroups.le {n : Int} {k j : Nat} (h : leastGroups n k) (hj : 1 ≤ j) (hfit : fitsGroups n j) : k ≤ j := by
  obtain ⟨-, -, hleast⟩ := h
  exact Nat.le_of_not_lt fun hlt => hleast j hj hlt hfit

/-- R81: the bound `b div 7 + 1`. -/
theorem leastGroups.le_bitlen {n : Int} {k : Nat} (h : leastGroups n k) : k ≤ bitlen n.natAbs / 7 + 1 :=
  h.le (by omega) ((fitsGroups_iff_bitlen n _).2 (.inl (by omega)))

/-- Settles O45: R81's formula counts the groups that fit, and `b div 7 + 1` groups always fit. -/
theorem signedLengthFormula : Obligations.SignedLengthFormula :=
  fun n => ⟨leastGroups_signedLen n, fun _ => leastGroups.le_bitlen⟩

/-! ### One group more -/

theorem ediv_groups_succ (n : Int) (i : Nat) : n / 2 ^ (7 * (i + 1)) = n / 2 ^ (7 * i) / 128 := by
  rw [Int.ediv_ediv_of_nonneg (by positivity), Nat.mul_succ, pow_add]
  rfl

theorem ediv_groups_neg (n : Int) (i : Nat) : n / 2 ^ (7 * i) < 0 ↔ n < 0 := by
  rw [Int.ediv_lt_iff_lt_mul (by positivity), zero_mul]

/-- `n` fits `i + 1` groups exactly when what is left of it after `i` groups fits the seven bits of one. -/
theorem fitsGroups_succ_iff (n : Int) (i : Nat) :
    fitsGroups n (i + 1) ↔ -64 ≤ n / 2 ^ (7 * i) ∧ n / 2 ^ (7 * i) < 64 := by
  have hpow : (2 : Int) ^ (7 * (i + 1) - 1) = 64 * 2 ^ (7 * i) := by
    rw [show 7 * (i + 1) - 1 = 6 + 7 * i by omega, pow_add]
    norm_num
  rw [fitsGroups, hpow, Int.le_ediv_iff_mul_le (by positivity), Int.ediv_lt_iff_lt_mul (by positivity), neg_mul]

/-! ### The groups of an integer (R94, R124) -/

section
variable (n : Int) (k i : Nat)

theorem groupOf_toNat : (groupOf n k i).toNat = (n / 2 ^ (7 * i) % 128).toNat + if i + 1 < k then 128 else 0 := by
  rw [groupOf, BitVec.toNat_ofNat, Nat.mod_eq_of_lt]
  split <;> omega

theorem groupOf_payload : ((Group.payload (groupOf n k i)).toNat : Int) = n / 2 ^ (7 * i) % 128 := by
  rw [Group.payload_toNat, groupOf_toNat]
  split <;> omega

theorem groupOf_cont : Group.cont (groupOf n k i) = decide (i + 1 < k) := by
  rw [Group.cont_eq, decide_eq_decide, groupOf_toNat]
  split <;> omega

theorem groupOf_sign : Group.sign (groupOf n k i) = decide (64 ≤ n / 2 ^ (7 * i) % 128) := by
  rw [Group.sign_eq, decide_eq_decide, groupOf_toNat]
  split <;> omega

/-- R72: the first `j` groups add up to `n`, less what is left of `n` after them. -/
theorem groupSum_groupOf_add (j : Nat) : (groupSum (groupOf n k) j : Int) + n / 2 ^ (7 * j) * 2 ^ (7 * j) = n := by
  induction j with
  | zero => simp [groupSum]
  | succ j ih =>
    have hdiv : n / 2 ^ (7 * j) = 128 * (n / 2 ^ (7 * (j + 1))) + n / 2 ^ (7 * j) % 128 := by
      rw [ediv_groups_succ]
      omega
    have hpow : (2 : Int) ^ (7 * (j + 1)) = 128 * 2 ^ (7 * j) := by
      rw [Nat.mul_succ, pow_add, mul_comm]
      rfl
    calc (groupSum (groupOf n k) (j + 1) : Int) + n / 2 ^ (7 * (j + 1)) * 2 ^ (7 * (j + 1))
        = groupSum (groupOf n k) j + (128 * (n / 2 ^ (7 * (j + 1))) + n / 2 ^ (7 * j) % 128) * 2 ^ (7 * j) := by
          rw [groupSum, hpow]
          push_cast
          rw [groupOf_payload]
          ring
      _ = n := by rw [← hdiv, ih]

end

/-- Bit 6 of the last group of a value that fits is its sign (R73). -/
theorem groupOf_sign_last {n : Int} {k i : Nat} (h : fitsGroups n (i + 1)) :
    Group.sign (groupOf n k i) = decide (n < 0) := by
  obtain ⟨hlo, hhi⟩ := (fitsGroups_succ_iff n i).1 h
  have hsign := ediv_groups_neg n i
  rw [groupOf_sign, decide_eq_decide]
  omega

/-! ### The value of a list of groups -/

/-- The `k`-group encoding of `n` as a list. -/
def groupList (n : Int) (k : Nat) : List Byte := (List.range k).map (groupOf n k)

@[simp] theorem groupList_length (n : Int) (k : Nat) : (groupList n k).length = k := by
  rw [groupList, List.length_map, List.length_range]

theorem byteAt_groupList (n : Int) {k i : Nat} (h : i < k) : byteAt (groupList n k) i = groupOf n k i := by
  simp [byteAt, groupList, h]

/-- R51: the sum looks at the groups it adds up only. -/
theorem groupSum_congr {f g : Nat → Byte} (k : Nat) (h : ∀ i < k, f i = g i) : groupSum f k = groupSum g k := by
  induction k with
  | zero => rfl
  | succ k ih => rw [groupSum, groupSum, ih fun i hi => h i (by omega), h k (by omega)]

theorem unsignedValue_groupList (n : Int) (k : Nat) : unsignedValue (groupList n k) = groupSum (groupOf n k) k := by
  rw [unsignedValue, groupList_length]
  exact groupSum_congr k fun _ hi => byteAt_groupList n hi

/-- R71, position by position. -/
theorem completeEncoding_of_cont : ∀ {l : List Byte}, l ≠ [] →
    (∀ i < l.length, Group.cont (byteAt l i) = decide (i + 1 < l.length)) → completeEncoding l = true
  | [], hne, _ => absurd rfl hne
  | [b], _, h => by
    have hb : Group.cont b = false := h 0 Nat.one_pos
    rw [Group.cont] at hb
    rw [completeEncoding, hb]
    rfl
  | b :: c :: rest, _, h => by
    have hb : Group.cont b = true := (h 0 (Nat.succ_pos _)).trans (decide_eq_true (by simp))
    have htail := completeEncoding_of_cont (l := c :: rest) (List.cons_ne_nil c rest) fun i hi => by
      simpa [byteAt] using h (i + 1) (Nat.succ_lt_succ hi)
    rw [Group.cont] at hb
    rw [completeEncoding, hb, htail]
    rfl

theorem completeEncoding_groupList (n : Int) {k : Nat} (hk : 1 ≤ k) : completeEncoding (groupList n k) = true := by
  have hlen := groupList_length n k
  refine completeEncoding_of_cont (fun hnil => ?_) fun i hi => ?_
  · rw [hnil, List.length_nil] at hlen
    omega
  · rw [hlen] at hi ⊢
    rw [byteAt_groupList n hi, groupOf_cont]

theorem one_le_length_of_completeEncoding {l : List Byte} (h : completeEncoding l = true) : 1 ≤ l.length := by
  cases l with
  | nil => cases h
  | cons b rest => exact Nat.succ_pos _

/-! ### Unsigned values (R72, R74) -/

theorem unsignedValue_groupList_of_lt {v k : Nat} (h : v < 2 ^ (7 * k)) : unsignedValue (groupList v k) = v := by
  have hsum := groupSum_groupOf_add v k k
  have hzero : (v : Int) / 2 ^ (7 * k) = 0 := Int.ediv_eq_zero_of_lt (by omega) (by exact_mod_cast h)
  rw [hzero, Int.zero_mul, Int.add_zero] at hsum
  rw [unsignedValue_groupList]
  exact_mod_cast hsum

/-- R74: no complete encoding of a value is shorter than `unsignedLen`. -/
theorem unsignedLen_le_length {l : List Byte} (h : completeEncoding l = true) :
    unsignedLen (unsignedValue l) ≤ l.length :=
  (unsignedLen_le_iff (one_le_length_of_completeEncoding h)).2 (groupSum_lt _ _)

/-! ### Signed values (R73, R75) -/

theorem signedValue_groupList {n : Int} {k : Nat} (hk : 1 ≤ k) (h : fitsGroups n k) :
    signedValue (groupList n k) = n := by
  obtain ⟨i, rfl⟩ := Nat.exists_eq_add_of_le' hk
  obtain ⟨hlo, hhi⟩ := (fitsGroups_succ_iff n i).1 h
  have hsign := ediv_groups_neg n i
  have hsum := groupSum_groupOf_add n (i + 1) (i + 1)
  rw [signedValue, unsignedValue_groupList, groupList_length, Nat.add_sub_cancel,
    byteAt_groupList n (Nat.lt_succ_self i), groupOf_sign_last h]
  have hleft : n / 2 ^ (7 * (i + 1)) = if n < 0 then -1 else 0 := by
    rw [ediv_groups_succ]
    split <;> omega
  rw [hleft] at hsum
  simp only [decide_eq_true_eq]
  split_ifs at hsum ⊢ <;> linarith

/-- R73: the value of a signed sequence, after its groups but the last, is the last payload as a 7-bit two's
complement number. -/
theorem signedSum_ediv (f : Nat → Byte) (i : Nat) :
    ((groupSum f (i + 1) : Int) - if Group.sign (f i) then 2 ^ (7 * (i + 1)) else 0) / 2 ^ (7 * i) =
      (Group.payload (f i)).toNat - if Group.sign (f i) then 128 else 0 := by
  have hlt : (groupSum f i : Int) < 2 ^ (7 * i) := by exact_mod_cast groupSum_lt f i
  have hsplit : ((groupSum f (i + 1) : Int) - if Group.sign (f i) then 2 ^ (7 * (i + 1)) else 0) =
      groupSum f i + ((Group.payload (f i)).toNat - if Group.sign (f i) then 128 else 0) * 2 ^ (7 * i) := by
    rw [groupSum, Nat.mul_succ, pow_add]
    push_cast
    split <;> ring
  rw [hsplit, Int.add_mul_ediv_right _ _ (by positivity), Int.ediv_eq_zero_of_lt (by omega) hlt, zero_add]

/-- R75: a complete encoding's value fits its number of groups. -/
theorem fitsGroups_signedValue {l : List Byte} (h : completeEncoding l = true) :
    fitsGroups (signedValue l) l.length := by
  obtain ⟨i, hi⟩ := Nat.exists_eq_add_of_le' (one_le_length_of_completeEncoding h)
  have hpay := Group.payload_toNat (byteAt l i)
  rw [signedValue, unsignedValue, hi, Nat.add_sub_cancel, fitsGroups_succ_iff, signedSum_ediv, Group.sign_eq, hpay]
  simp only [decide_eq_true_eq]
  split <;> omega

end Sys2Proof.Machine
end

section
/-! PROOFS. The runs of the two encoders (R92, R94, R118 to R124): each iteration appends the next group of the value,
and the last one is the last of the shortest encoding (R74, R75). -/

namespace Sys2Proof.Machine

/-! ### The group that an iteration appends -/

theorem Group.byte_eq_groupOf {p : Payload} {more : Bool} {n : Int} {k i : Nat}
    (hp : (p.toNat : Int) = n / 2 ^ (7 * i) % 128) (hmore : more = decide (i + 1 < k)) :
    Group.byte p more = groupOf n k i := by
  rw [Group.byte_eq, groupOf, hmore, ← hp, Int.toNat_natCast]
  simp only [decide_eq_true_eq]

/-- An encoder before group `k` of `k`: its end test fires at the last one. -/
theorem not_last_eq {last : Bool} {k i : Nat} (hi : i < k) (h : last = decide (i + 1 = k)) :
    (!last) = decide (i + 1 < k) := by
  rw [h, ← decide_not, decide_eq_decide]
  omega

/-- R92, R80: the end test fires exactly when the groups up to `IDX` are enough for `VAL`. -/
theorem lastU64_iff_unsignedLen_le {s : State} (h : encodingU64 s) :
    lastU64 (shr64 s.n) = true ↔ unsignedLen s.val.toNat ≤ s.idx + 1 := by
  obtain ⟨hn, -⟩ := h
  have hpow : 2 ^ (7 * s.idx) * 128 = 2 ^ (7 * (s.idx + 1)) := by ring
  rw [lastU64_eq, decide_eq_true_eq, hn, Nat.div_div_eq_div_mul, hpow, Nat.div_eq_zero_iff_lt (Nat.two_pow_pos _),
    unsignedLen_le_iff (by omega)]

/-- R94: the iteration at `IDX` appends that group of `VAL`, and ends with the last of `unsignedLen`. -/
theorem iterEncodeU64_group {s : State} (h : encodingU64 s) (hi : s.idx < unsignedLen s.val.toNat) :
    iterEncodeU64 s = .next (State.append { s with n := shr64 s.n }
      (groupOf s.val.toNat (unsignedLen s.val.toNat) s.idx) (decide (s.idx + 1 = unsignedLen s.val.toNat))) := by
  obtain ⟨hn, -⟩ := id h
  have hpay : ((s.n.extractLsb' 0 7).toNat : Int) = (s.val.toNat : Int) / 2 ^ (7 * s.idx) % 128 := by
    rw [BitVec.extractLsb'_toNat, Nat.shiftRight_zero, hn]
    norm_cast
  have hlast : lastU64 (shr64 s.n) = decide (s.idx + 1 = unsignedLen s.val.toNat) := by
    rw [Bool.eq_iff_iff, lastU64_iff_unsignedLen_le h, decide_eq_true_eq]
    omega
  rw [iterEncodeU64_next, Group.byte_eq_groupOf hpay (not_last_eq hi hlast), hlast]

section
variable {s : State} (h : encodingBig s)
include h

/-- The low seven bits of `W` are those of what is left of `value(BIG)`. -/
theorem bigRem_eq_emod : (bigRem s : Int) = s.big / 2 ^ (7 * s.idx) % 128 := by
  obtain ⟨-, -, -, -, hmod⟩ := h
  have hd : (128 : Int) ∣ 2 ^ max s.size 7 := pow_dvd_pow 2 (le_max_right s.size 7)
  show ((s.w % 128 : Nat) : Int) = _
  rw [Int.natCast_mod, Nat.cast_ofNat, ← Int.emod_emod_of_dvd _ hd, hmod, Int.emod_emod_of_dvd _ hd]

/-- The all-ones test (R163) of a negative value: the filled quotient has `SIZE` ones exactly when -1 is left. -/
theorem bigFilled_allOnes_iff (hneg : s.bigNeg = true) :
    bigFilled s % 2 ^ s.size = 2 ^ s.size - 1 ↔ s.bigLeft (s.idx + 1) = -1 := by
  obtain ⟨hsize, -, -, -, -⟩ := id h
  have hlo : -2 ^ s.size ≤ s.bigLeft (s.idx + 1) := State.le_bigLeft hneg (by omega)
  have hhi := State.bigLeft_neg hneg (s.idx + 1)
  have hd : (2 : Int) ^ s.size ∣ 2 ^ max s.size 7 := pow_dvd_pow 2 (le_max_left _ _)
  have hrem : ((bigFilled s % 2 ^ s.size : Nat) : Int) = s.bigLeft (s.idx + 1) + 2 ^ s.size := by
    rw [Int.natCast_mod, Nat.cast_pow, Nat.cast_ofNat, ← Int.emod_emod_of_dvd _ hd, bigFilled_emod h,
      Int.emod_emod_of_dvd _ hd, ← Int.add_emod_right, Int.emod_eq_of_lt (by omega) (by omega)]
  have hcast : ((2 ^ s.size : Nat) : Int) = 2 ^ s.size := by norm_cast
  have hpos := Nat.two_pow_pos s.size
  omega

/-- R121: the end test fires exactly when the value fits the groups up to `IDX`. -/
theorem lastBig_iff_fitsGroups :
    lastBig s.neg s.size (bigFilled s) (bigRem s) = true ↔ fitsGroups s.big (s.idx + 1) := by
  obtain ⟨-, hbn, -, hw, -⟩ := id h
  have hrem : ((s.w % 128 : Nat) : Int) = s.bigLeft s.idx % 128 := bigRem_eq_emod h
  have hfits : fitsGroups s.big (s.idx + 1) ↔ -64 ≤ s.bigLeft s.idx ∧ s.bigLeft s.idx < 64 :=
    fitsGroups_succ_iff s.big s.idx
  rw [lastBig_iff, hfits]
  cases hneg : s.neg with
  | false =>
    have hleft : s.bigLeft s.idx = s.w := by
      rw [State.bigLeft, State.big_of_not_bigNeg (hbn ▸ hneg), hw hneg]
      norm_cast
    have hfilled : bigFilled s = s.w / 128 := by rw [bigFilled_eq, hneg, if_neg Bool.false_ne_true]
    rw [hfilled, hleft]
    simp only [true_and, reduceCtorEq, false_and, or_false]
    omega
  | true =>
    have hhi := State.bigLeft_neg (hbn ▸ hneg) s.idx
    rw [bigFilled_allOnes_iff h (hbn ▸ hneg), State.bigLeft_succ]
    simp only [true_and, reduceCtorEq, false_and, false_or]
    omega

/-- R124: the iteration at `IDX` appends that group of `value(BIG)`, and ends with the last of the least number. -/
theorem iterEncodeBigSigned_group {k : Nat} (hk : leastGroups s.big k) (hi : s.idx < k) :
    iterEncodeBigSigned s = .next (State.append { s with w := bigFilled s }
      (groupOf s.big k s.idx) (decide (s.idx + 1 = k))) := by
  have hpay : ((BitVec.ofNat 7 (bigRem s)).toNat : Int) = s.big / 2 ^ (7 * s.idx) % 128 := by
    have hlt : bigRem s < 2 ^ 7 := Nat.mod_lt _ (by norm_num)
    rw [BitVec.toNat_ofNat, Nat.mod_eq_of_lt hlt, bigRem_eq_emod h]
  have hlast : lastBig s.neg s.size (bigFilled s) (bigRem s) = decide (s.idx + 1 = k) := by
    rw [Bool.eq_iff_iff, lastBig_iff_fitsGroups h, decide_eq_true_eq]
    obtain ⟨-, hfit, -⟩ := id hk
    exact ⟨fun hf => le_antisymm hi (hk.le (by omega) hf), fun he => he ▸ hfit⟩
  rw [iterEncodeBigSigned_next, Group.byte_eq_groupOf hpay (not_last_eq hi hlast), hlast]

end

/-! ### An encoder under way -/

/-- One of the two encoders runs, with no host action left, and has still to append a group of the `k`-group encoding
of `n`, the shortest of its kind, for which the buffer has room. -/
structure Encoding (n : Int) (k : Nat) (s : State) : Prop where
  agenda : s.agenda = []
  phase  : s.phase = .run
  task   : (decodeCmd s.opr = .encodeU64 ∧ encodingU64 s ∧ n = s.val.toNat ∧ k = unsignedLen s.val.toNat) ∨
    (decodeCmd s.opr = .encodeBigSigned ∧ encodingBig s ∧ n = s.big ∧ leastGroups s.big k)
  room   : s.cfg.bufcap.admits k = true
  idx_lt : s.idx < k

/-- A step of an encoder appends the group at `IDX`; after one that is not the last the encoder is still under way. -/
theorem Encoding.step {n : Int} {k : Nat} {s : State} (h : Encoding n k s) :
    ∃ x w,
      Machine.step s = .next (State.append { s with n := x, w := w } (groupOf n k s.idx) (decide (s.idx + 1 = k))) ∧
      (s.idx + 1 < k → Encoding n k (State.append { s with n := x, w := w } (groupOf n k s.idx) false)) := by
  obtain ⟨ha, hp, htask, hroom, hi⟩ := h
  rcases htask with ⟨hc, hrun, rfl, rfl⟩ | ⟨hc, hrun, rfl, hk⟩
  · have hnext := iterEncodeU64_group hrun hi
    refine ⟨shr64 s.n, s.w, by rw [step_of_run ha hp, hc, exec_encodeU64_run hp, hnext], fun hmore => ?_⟩
    have hlast : lastU64 (shr64 s.n) = false := by
      rw [Bool.eq_false_iff, ne_eq, lastU64_iff_unsignedLen_le hrun]
      exact hmore.not_ge
    exact ⟨ha, hp, .inl ⟨hc, encodingU64_append hrun _ hlast, rfl, rfl⟩, hroom, hmore⟩
  · have hnext := iterEncodeBigSigned_group hrun hk hi
    refine ⟨s.n, bigFilled s, by rw [step_of_run ha hp, hc, exec_encodeBigSigned_run hp, hnext], fun hmore => ?_⟩
    have hlast : lastBig s.neg s.size (bigFilled s) (bigRem s) = false := by
      rw [Bool.eq_false_iff, ne_eq, lastBig_iff_fitsGroups hrun]
      exact fun hfit => hmore.not_ge (hk.le (by omega) hfit)
    exact ⟨ha, hp, .inr ⟨hc, encodingBig_append hrun _ hlast, rfl, hk⟩, hroom, hmore⟩

/-! ### The whole run -/

/-- `s` with the first `j` groups of the `k`-group encoding of `n` in the buffer, and two working registers written. -/
def State.withGroups (s : State) (n : Int) (k j : Nat) (x : Word64) (w : Nat) : State :=
  { s with buf := putGroups s.buf n k j, idx := j, n := x, w := w }

section
variable {s : State} {n : Int} {k j : Nat} {x : Word64} {w : Nat} (room : s.cfg.bufcap.admits (j + 1) = true)
include room

/-- R54, R56: a group more, where the cell exists. -/
theorem State.withGroups_memWrite :
    (s.withGroups n k j x w).memWrite j (groupOf n k j) = { s.withGroups n k (j + 1) x w with idx := j } :=
  State.memWrite_present (s := s.withGroups n k j x w) _ room

theorem State.withGroups_append_more :
    (s.withGroups n k j x w).append (groupOf n k j) false = s.withGroups n k (j + 1) x w :=
  congrArg (fun t : State => { t with idx := j + 1 }) (State.withGroups_memWrite room)

theorem State.withGroups_append_last :
    (s.withGroups n k j x w).append (groupOf n k j) true =
      State.finish { s.withGroups n k (j + 1) x w with len := j + 1, idx := j } :=
  congrArg (fun t : State => State.finish { t with len := j + 1 }) (State.withGroups_memWrite room)

end

/-- Before its last group, an encoder has written the groups below `IDX` and is under way. -/
theorem Encoding.steps {n : Int} {k : Nat} {s : State} (h : Encoding n k s) (h0 : s.idx = 0) {j : Nat} (hj : j < k) :
    ∃ x w, Machine.steps j s = .next (s.withGroups n k j x w) ∧ Encoding n k (s.withGroups n k j x w) := by
  induction j with
  | zero =>
    have hs : s.withGroups n k 0 s.n s.w = s := by
      show { s with idx := 0 } = s
      rw [← h0]
    exact ⟨s.n, s.w, by rw [hs]; rfl, hs.symm ▸ h⟩
  | succ j ih =>
    obtain ⟨x, w, hsteps, hrun⟩ := ih (by omega)
    obtain ⟨y, v, hstep, hmore⟩ := hrun.step
    have happend : (s.withGroups n k j y v).append (groupOf n k j) false = s.withGroups n k (j + 1) y v :=
      State.withGroups_append_more (Capacity.admits_mono h.room hj.le)
    have hlast : decide ((s.withGroups n k j x w).idx + 1 = k) = false := decide_eq_false hj.ne
    rw [hlast] at hstep
    have hnext : Machine.step (s.withGroups n k j x w) = .next (s.withGroups n k (j + 1) y v) :=
      hstep.trans (congrArg _ happend)
    have hrun' : Encoding n k ((s.withGroups n k j y v).append (groupOf n k j) false) := hmore hj
    exact ⟨y, v, by rw [steps_add hsteps, steps_succ_next hnext]; rfl, happend ▸ hrun'⟩

/-- R94, R124: an encoder at its first group ends after `k` steps, with the `k` groups in the buffer and `LEN = k`. -/
theorem Encoding.steps_end {n : Int} {k : Nat} {s : State} (h : Encoding n k s) (h0 : s.idx = 0) :
    ∃ x w, Machine.steps k s = .next (State.finish { s.withGroups n k k x w with len := k, idx := k - 1 }) := by
  obtain ⟨j, rfl⟩ := Nat.exists_eq_add_of_le' (Nat.one_le_of_lt h.idx_lt)
  obtain ⟨x, w, hsteps, hrun⟩ := h.steps h0 (Nat.lt_succ_self j)
  obtain ⟨y, v, hstep, -⟩ := hrun.step
  have hlast : decide ((s.withGroups n (j + 1) j x w).idx + 1 = j + 1) = true := decide_eq_true rfl
  rw [hlast] at hstep
  have hnext := hstep.trans (congrArg _ (State.withGroups_append_last (n := n) (k := j + 1) (x := y) (w := v) h.room))
  exact ⟨y, v, by rw [steps_add hsteps, steps_succ_next hnext]; rfl⟩

/-- R53, R54: what the buffer lists after `j` groups. -/
theorem Memory.cell_putGroups (m : Memory) (n : Int) (k i j : Nat) :
    Memory.cell (putGroups m n k j) i = if i < j then some (groupOf n k i) else Memory.cell m i := by
  induction j with
  | zero => rfl
  | succ j ih =>
    rw [putGroups]
    by_cases hi : i = j
    · rw [hi, Memory.cell_put_same, if_pos (Nat.lt_succ_self j)]
    · have hlt : i < j + 1 ↔ i < j := by omega
      simp only [Memory.cell_put_ne _ _ hi, ih, hlt]

/-- The cells below `LEN` after an encoder's run, as a list. -/
theorem memRead_groupList {t : State} {m : Memory} {n : Int} {k : Nat} (h : t.buf = putGroups m n k k) :
    (List.range k).map t.memRead = groupList n k := by
  refine List.map_congr_left fun i hi => ?_
  rw [State.memRead, h, Memory.cell_putGroups, if_pos (List.mem_range.1 hi)]

/-- The run of an encoder from the host's `CMD` write to its end, and what the buffer then holds. -/
theorem steps_issue_encoder {i : Instr} {n : Int} {k : Nat} {s : State} (hp : s.phase = .idle)
    (h : Encoding n k (startStep i { s with agenda := [] })) :
    ∃ t, steps (k + 1) (s.issue i) = .next t ∧ t.phase = .idle ∧ t.done = true ∧ t.len = k ∧
      (List.range t.len).map t.memRead = groupList n k := by
  obtain ⟨x, w, hend⟩ := h.steps_end (startStep_idx i _)
  exact ⟨_, (steps_succ_next (step_issue hp i)).trans hend, rfl, rfl, rfl, memRead_groupList rfl⟩

/-! ### The shortest encodings (R74, R75) -/

/-- R91: `encodeU64` starts under way; ten groups hold any `VAL`, and every buffer has room for them (R7). -/
theorem encoding_startEncodeU64 {s : State} (hcfg : s.cfg.wellFormed = true) (ha : s.agenda = []) :
    Encoding s.val.toNat (unsignedLen s.val.toNat) (startStep .encodeU64 s) where
  agenda := ha
  phase := rfl
  task := by
    have hc := decodeCmd_startStep .encodeU64 s
    exact .inl ⟨hc, (commandOk_encodeU64 hc).1 (commandOk_startStep .encodeU64 s), rfl, rfl⟩
  room := by
    have hten : unsignedLen s.val.toNat ≤ 10 :=
      (unsignedLen_le_iff (by norm_num)).2 (s.val.isLt.trans (by norm_num))
    exact Capacity.admits_mono (Config.admits_ten hcfg) hten
  idx_lt := one_le_unsignedLen _

theorem State.big_natAbs (s : State) : s.big.natAbs = s.bmag := by
  rw [State.big]
  split
  · exact Int.natAbs_neg _
  · rfl

/-- R117: `encodeBigSigned` starts under way; by R7 the buffer has room for a value that fits `MAGBITS`. -/
theorem encoding_startEncodeBigSigned {s : State} (hcfg : s.cfg.wellFormed = true) (hmag : s.magFits s.bmag = true)
    (ha : s.agenda = []) {k : Nat} (hk : leastGroups s.big k) : Encoding s.big k (startStep .encodeBigSigned s) where
  agenda := ha
  phase := rfl
  task := .inr ⟨decodeCmd_startStep _ s, encodingBig_start s, rfl, hk⟩
  room := Capacity.admits_mono (Config.admits_groups hcfg hmag) (s.big_natAbs ▸ hk.le_bitlen)
  idx_lt := hk.1

/-- Settles O43: the run leaves the groups of `VAL`, `unsignedLen` of them, and no complete encoding has fewer. -/
theorem encodeU64WritesShortest : Obligations.EncodeU64WritesShortest := by
  intro s hp hcfg
  obtain ⟨t, hsteps, hidle, hdone, hlen, hlist⟩ :=
    steps_issue_encoder (n := s.val.toNat) hp (encoding_startEncodeU64 (s := { s with agenda := [] }) hcfg rfl)
  refine ⟨_, t, Nat.succ_pos _, hsteps, hidle, hdone, hlen, ?_⟩
  simp only [hlist, groupList_length]
  refine ⟨completeEncoding_groupList _ (one_le_unsignedLen _),
    unsignedValue_groupList_of_lt ((unsignedLen_le_iff (one_le_unsignedLen _)).1 le_rfl), fun l' hl' hv' => ?_⟩
  exact hv' ▸ unsignedLen_le_length hl'

/-- Settles O44: the run leaves the least number of groups that `value(BIG)` fits, and the value of a complete encoding
fits its number of groups. -/
theorem encodeBigSignedWritesShortest : Obligations.EncodeBigSignedWritesShortest := by
  intro s hp hcfg hmag
  have hk := leastGroups_signedLen s.big
  obtain ⟨t, hsteps, hidle, hdone, -, hlist⟩ :=
    steps_issue_encoder (n := s.big) hp (encoding_startEncodeBigSigned (s := { s with agenda := [] }) hcfg hmag rfl hk)
  obtain ⟨hone, hfit, -⟩ := id hk
  refine ⟨_, t, Nat.succ_pos _, hsteps, hidle, hdone, ?_⟩
  simp only [hlist, groupList_length]
  refine ⟨completeEncoding_groupList _ hone, signedValue_groupList hone hfit, fun l' hl' hv' => ?_⟩
  exact hk.le (one_le_length_of_completeEncoding hl') (hv' ▸ fitsGroups_signedValue hl')

end Sys2Proof.Machine
end

section
/-! PROOFS. The unsigned-64 encoder (R90 to R94) and the decoder that reads its bytes back (R102, R107): the single
steps in arithmetic, the run of `encodeU64` as a whole, and the round trip. -/

namespace Sys2Proof.Machine

/-! ### The steps of `encodeU64` (R91, R92) -/

/-- Settles O11: the start step is R173's common writes and R91's two. -/
theorem encodeU64Start : Obligations.EncodeU64Start := fun _ h => exec_encodeU64_idle h

/-- R92 in arithmetic: the byte of an iteration is `N mod 128`, with `0x80` unless it is the last. -/
theorem iterEncodeU64_eq (s : State) :
    iterEncodeU64 s = .next (State.append { s with n := BitVec.ofNat 64 (s.n.toNat / 128) }
      (BitVec.ofNat 8 (s.n.toNat % 128 + if s.n.toNat / 128 = 0 then 0 else 128))
      (decide (s.n.toNat / 128 = 0))) := by
  rw [iterEncodeU64_next, Group.byte_eq, lastU64_eq, shr64_eq_ofNat, BitVec.extractLsb'_toNat, Nat.shiftRight_zero]
  by_cases hlast : s.n.toNat / 128 = 0 <;> simp [hlast]

/-- Settles O15: an iteration is one `State.append`, which stores to the existing cell `IDX`. -/
theorem encodeU64Iteration : Obligations.EncodeU64Iteration := by
  intro s hp hcell
  rw [exec_encodeU64_run hp, iterEncodeU64_eq]
  have hstore (n : Word64) (b : Byte) : State.memWrite { s with n := n } s.idx b =
      { s with n := n, buf := Memory.put s.buf s.idx b } :=
    State.memWrite_present (s := { s with n := n }) b hcell
  constructor
  · intro hlast
    rw [if_pos hlast, decide_eq_true hlast, State.append_last, hstore, hlast]
    rfl
  · intro hmore
    rw [if_neg hmore, decide_eq_false hmore, State.append_more, hstore]

/-! ### The run of `encodeU64` (R94) -/

/-- A predicate that the codec's turn keeps holds after every run in which the host has nothing to do. -/
theorem steps_keep {P : State → Prop} (hturn : ∀ {s t}, P s → codecTurn s = .next t → P t) (k : Nat) :
    ∀ {s t : State}, s.agenda = [] → P s → steps k s = .next t → P t := by
  induction k with
  | zero =>
    intro s t _ h ht
    cases ht
    exact h
  | succ k ih =>
    intro s t ha h ht
    obtain ⟨u, hu⟩ := step_next s
    have hcodec : codecTurn s = .next u := step_of_no_agenda ha ▸ hu
    rw [steps_succ_next hu] at ht
    exact ih ((codecTurn_agenda hcodec).trans ha) (hturn h hcodec) ht

/-- `encodeU64` under way or ended, with `w` in the working register `W`: it ends only with nothing of `N` left. -/
structure LatchedEncodeU64 (w : Nat) (s : State) : Prop where
  opr  : decodeCmd s.opr = .encodeU64
  w_eq : s.w = w
  ends : s.phase = .idle → s.n = 0

theorem LatchedEncodeU64.codecTurn {w : Nat} {s t : State} (h : LatchedEncodeU64 w s)
    (ht : Machine.codecTurn s = .next t) : LatchedEncodeU64 w t := by
  rcases codecTurn_cases s with ⟨-, hs⟩ | ⟨hp, hs⟩
  · cases hs.symm.trans ht
    exact h
  · rw [h.opr, exec_encodeU64_run hp, iterEncodeU64_next] at hs
    cases hs.symm.trans ht
    refine ⟨(congrArg decodeCmd (State.append_opr _ _ _)).trans h.opr, (State.append_w _ _ _).trans h.w_eq, ?_⟩
    rw [State.append_phase, State.append_n]
    cases hlast : lastU64 (shr64 s.n) with
    | true => exact fun _ => eq_of_beq hlast
    | false => exact fun hidle => absurd (hp.symm.trans hidle) (by decide)

/-- R94: `encodeU64` at its first group writes all groups of the value, and leaves 0 in `N` and `W` as it was. -/
theorem Encoding.steps_end_encodeU64 {n : Int} {k : Nat} {s : State} (h : Encoding n k s) (h0 : s.idx = 0)
    (hc : decodeCmd s.opr = .encodeU64) :
    Machine.steps k s = .next (State.finish { s.withGroups n k k 0 s.w with len := k, idx := k - 1 }) := by
  obtain ⟨x, w, hsteps⟩ := h.steps_end h0
  have hstart : LatchedEncodeU64 s.w s := ⟨hc, rfl, fun hidle => absurd (h.phase.symm.trans hidle) (by decide)⟩
  obtain ⟨-, hw, hx⟩ := steps_keep LatchedEncodeU64.codecTurn k h.agenda hstart hsteps
  cases show w = s.w from hw
  cases show x = 0 from hx rfl
  exact hsteps

/-- R80: ten groups hold any 64-bit value. -/
theorem unsignedLen_le_ten (v : Word64) : unsignedLen v.toNat ≤ 10 :=
  (unsignedLen_le_iff (by norm_num)).2 (v.isLt.trans (by norm_num))

/-- R94: with a last group of 0, one group less would hold the value, unless there is only the one. -/
theorem eq_zero_of_groupOf_last_eq_zero {v : Nat} (h : groupOf v (unsignedLen v) (unsignedLen v - 1) = 0) : v = 0 := by
  obtain ⟨i, hk⟩ := Nat.exists_eq_add_of_le' (one_le_unsignedLen v)
  have hlt : v < 2 ^ (7 * i) * 128 := by
    rw [show 2 ^ (7 * i) * 128 = 2 ^ (7 * (i + 1)) by ring]
    exact (unsignedLen_le_iff (Nat.succ_pos i)).1 hk.le
  have hpay : v / 2 ^ (7 * i) % 128 = 0 := by
    have hg := groupOf_payload v (unsignedLen v) (unsignedLen v - 1)
    rw [h, hk, Nat.add_sub_cancel] at hg
    exact_mod_cast hg.symm
  have hbelow : v < 2 ^ (7 * i) := by
    have hdiv : v / 2 ^ (7 * i) < 128 := Nat.div_lt_of_lt_mul hlt
    rwa [Nat.mod_eq_of_lt hdiv, Nat.div_eq_zero_iff_lt (Nat.two_pow_pos _)] at hpay
  rcases Nat.eq_zero_or_pos i with rfl | hi
  · exact Nat.lt_one_iff.1 hbelow
  · have := (unsignedLen_le_iff hi).2 hbelow
    omega

/-- Settles O36: the start leaves `encodeU64` at its first group, and its run ends with `unsignedLen` of them. -/
theorem encodeU64ClosedForm : Obligations.EncodeU64ClosedForm := by
  intro s hp hcfg
  have hrun := encoding_startEncodeU64 (s := { s with agenda := [] }) hcfg rfl
  refine ⟨?_, one_le_unsignedLen _, unsignedLen_le_ten _, eq_zero_of_groupOf_last_eq_zero⟩
  rw [steps_succ_next (step_issue hp .encodeU64), hp]
  exact hrun.steps_end_encodeU64 rfl (decodeCmd_startStep .encodeU64 _)

/-! ### The run of `decodeU64` up to its last group (R102, R107) -/

/-- The group at `i` is there and none of the checks of R102 raises at it. -/
structure State.AcceptsU64 (s : State) (i : Nat) : Prop where
  below   : i < s.len
  notMany : tooManyGroups s.cfg.policy i = false
  notWide : tenthGroupTooWide s.cfg.policy i (Group.payload (s.memRead i)) = false

/-- R102: past its checks an iteration merges the payload, and goes on or ends by the continuation bit. -/
theorem iterDecodeU64_of_accepts {s : State} (h : s.AcceptsU64 s.idx) :
    iterDecodeU64 s = .next (if Group.cont (s.memRead s.idx) then { s with a64 := mergedU64 s, idx := s.idx + 1 }
      else State.finish { s with a64 := mergedU64 s, val := mergedU64 s }) := by
  obtain ⟨hlen, hmany, hwide⟩ := h
  simp only [iterDecodeU64, if_neg hlen.not_ge, hmany, hwide, Bool.false_eq_true, if_false]
  rfl

/-- The sum of the first `j` groups as `A64` and `VAL` hold it (R29). -/
def State.sumU64 (s : State) (j : Nat) : Word64 := BitVec.ofNat 64 (groupSum s.memRead j)

/-- `decodeU64`, started in `s` by a host with nothing else to do, after it has read the first `j` groups. -/
def State.readU64 (s : State) (j : Nat) : State :=
  { startDecodeU64 { s with agenda := [] } with a64 := s.sumU64 j, idx := j }

section
variable {s : State} {j : Nat}

/-- R102: the iteration at an accepted group. -/
theorem step_readU64 (h : s.AcceptsU64 j) :
    step (s.readU64 j) = .next (if Group.cont (s.memRead j) then s.readU64 (j + 1)
      else State.finish { s.readU64 (j + 1) with val := s.sumU64 (j + 1), idx := j }) := by
  have hmerged : mergedU64 (s.readU64 j) = s.sumU64 (j + 1) := mergedU64_eq rfl
  have hiter := iterDecodeU64_of_accepts (s := s.readU64 j) ⟨h.below, h.notMany, h.notWide⟩
  have hcode : decodeCmd (s.readU64 j).opr = .decodeU64 := decodeCmd_encode .decodeU64
  rw [step_of_run rfl rfl, hcode, exec_decodeU64_run rfl, hiter, hmerged]
  rfl

/-- R107: `decodeU64` reads on while the groups are accepted and continue. -/
theorem steps_decodeU64_reads (hp : s.phase = .idle)
    (hmore : ∀ i < j, s.AcceptsU64 i ∧ Group.cont (s.memRead i) = true) :
    steps (j + 1) (s.issue .decodeU64) = .next (s.readU64 j) := by
  induction j with
  | zero => exact steps_succ_next (step_issue hp .decodeU64)
  | succ j ih =>
    obtain ⟨haccept, hcont⟩ := hmore j (Nat.lt_succ_self j)
    have hstep := step_readU64 haccept
    rw [if_pos hcont] at hstep
    rw [steps_add (ih fun i hi => hmore i (by omega)), steps_succ_next hstep]
    rfl

/-- R107: `decodeU64` ends at the first group that does not continue, with the sum of the payloads in `VAL`. -/
theorem steps_decodeU64_ends (hp : s.phase = .idle) (haccept : ∀ i ≤ j, s.AcceptsU64 i)
    (hmore : ∀ i < j, Group.cont (s.memRead i) = true) (hlast : Group.cont (s.memRead j) = false) :
    steps (j + 1 + 1) (s.issue .decodeU64) =
      .next (State.finish { s.readU64 (j + 1) with val := s.sumU64 (j + 1), idx := j }) := by
  have hstep := step_readU64 (haccept j le_rfl)
  rw [hlast, if_neg Bool.false_ne_true] at hstep
  rw [steps_add (steps_decodeU64_reads hp fun i hi => ⟨haccept i hi.le, hmore i hi⟩), steps_succ_next hstep]
  rfl

end

/-! ### The round trip (R94, R107) -/

/-- R105: what the checks of policy `fault` let pass, they let pass under both policies. -/
theorem State.acceptsU64_of_lt {s : State} {i : Nat} (hlen : i < s.len) (hi : i < 10)
    (hnine : i = 9 → (Group.payload (s.memRead i)).toNat < 2) : s.AcceptsU64 i where
  below := hlen
  notMany := by simp [tooManyGroups, hi]
  notWide := by
    have hbits : ∀ p : Payload, p.toNat < 2 → p.extractLsb' 1 6 = 0 := by decide
    by_cases h9 : i = 9
    · simp [tenthGroupTooWide, hbits _ (hnine h9)]
    · simp [tenthGroupTooWide, h9]

/-- The tenth group of a 64-bit value holds the one bit that nine groups leave. -/
theorem groupOf_nine_payload_lt (v : Word64) (k : Nat) : (Group.payload (groupOf v.toNat k 9)).toNat < 2 := by
  have hv := v.isLt
  have hpay := groupOf_payload v.toNat k 9
  omega

/-- R94, R107: `decodeU64` run on the encoding of `v`, whatever else the state holds. -/
theorem steps_decodeU64_groupList {s : State} {v : Word64} (hp : s.phase = .idle)
    (hlen : s.len = unsignedLen v.toNat)
    (hlist : (List.range s.len).map s.memRead = groupList v.toNat (unsignedLen v.toNat)) :
    ∃ u, steps (s.len + 1) (s.issue .decodeU64) = .next u ∧ u.phase = .idle ∧ u.done = true ∧ u.err = .none ∧
      u.val = v := by
  obtain ⟨j, hj⟩ := Nat.exists_eq_add_of_le' (one_le_unsignedLen v.toNat)
  have hten := unsignedLen_le_ten v
  have hgroup : ∀ i < s.len, s.memRead i = groupOf v.toNat (unsignedLen v.toNat) i := by
    rw [groupList, ← hlen, List.map_inj_left] at hlist
    exact fun i hi => hlen ▸ hlist i (List.mem_range.2 hi)
  have hcont : ∀ i < s.len, Group.cont (s.memRead i) = decide (i < j) := fun i hi => by
    rw [hgroup i hi, groupOf_cont, hj, decide_eq_decide, Nat.add_lt_add_iff_right]
  have haccept : ∀ i ≤ j, s.AcceptsU64 i := fun i hi =>
    State.acceptsU64_of_lt (by omega) (by omega) fun h9 => by
      rw [hgroup i (by omega), h9]
      exact groupOf_nine_payload_lt v _
  have hsum : groupSum s.memRead (j + 1) = v.toNat := by
    rw [← hj, ← hlen, groupSum_congr s.len hgroup, hlen, ← unsignedValue_groupList]
    exact unsignedValue_groupList_of_lt ((unsignedLen_le_iff (one_le_unsignedLen _)).1 le_rfl)
  have hrun := steps_decodeU64_ends hp haccept
    (fun i hi => (hcont i (by omega)).trans (decide_eq_true hi))
    ((hcont j (by omega)).trans (decide_eq_false (lt_irrefl j)))
  refine ⟨_, by rw [hlen, hj]; exact hrun, rfl, rfl, rfl, ?_⟩
  show s.sumU64 (j + 1) = v
  rw [State.sumU64, hsum, BitVec.ofNat_toNat, BitVec.setWidth_eq]

/-- Settles O41: `encodeU64` leaves the groups of `VAL` in the buffer, and a write of `VAL` leaves them there. -/
theorem u64RoundTrip : Obligations.U64RoundTrip := by
  intro s x hp hcfg
  obtain ⟨t, hsteps, hidle, hdone, hlen, hlist⟩ :=
    steps_issue_encoder (n := s.val.toNat) hp (encoding_startEncodeU64 (s := { s with agenda := [] }) hcfg rfl)
  obtain ⟨u, hdecode, hend⟩ :=
    steps_decodeU64_groupList (s := { t with val := x }) (v := s.val) hidle hlen hlist
  exact ⟨_, _, t, u, Nat.succ_pos _, Nat.succ_pos _, hsteps, hidle, hdone, hdecode, hend⟩

end Sys2Proof.Machine
end

section
/-! PROOFS. The unsigned-64 decoder (R100 to R107): the checks of R102 in arithmetic, the single steps, and the run of
`decodeU64` as a whole under both policies. -/

namespace Sys2Proof.Machine

/-! ### The steps of `decodeU64` (R101, R102) -/

/-- Settles O12: the start step is R173's common writes and R101's two. -/
theorem decodeU64Start : Obligations.DecodeU64Start := fun _ h => exec_decodeU64_idle h

theorem tooManyGroups_iff (p : OvfPolicy) (i : Nat) : tooManyGroups p i = true ↔ p = .fault ∧ 10 ≤ i := by
  simp [tooManyGroups]

theorem tenthGroupTooWide_iff (p : OvfPolicy) (i : Nat) (pay : Payload) :
    tenthGroupTooWide p i pay = true ↔ p = .fault ∧ i = 9 ∧ 2 ≤ pay.toNat := by
  have hbits : pay.extractLsb' 1 6 ≠ 0 ↔ 2 ≤ pay.toNat := by
    revert pay
    decide
  simp only [tenthGroupTooWide, Bool.and_eq_true, beq_iff_eq, bne_iff_ne, hbits, and_assoc]

/-- R102, R105 in arithmetic: when the group at `i` passes the checks. -/
theorem State.acceptsU64_iff {s : State} {i : Nat} :
    s.AcceptsU64 i ↔
      i < s.len ∧ (s.cfg.policy = .fault → i ≤ 9 ∧ (i = 9 → (s.memRead i).toNat % 128 < 2)) := by
  have hchecks : s.AcceptsU64 i ↔ i < s.len ∧ ¬ tooManyGroups s.cfg.policy i = true ∧
      ¬ tenthGroupTooWide s.cfg.policy i (Group.payload (s.memRead i)) = true := by
    simp only [Bool.not_eq_true]
    exact ⟨fun ⟨hlen, hmany, hwide⟩ => ⟨hlen, hmany, hwide⟩, fun ⟨hlen, hmany, hwide⟩ => ⟨hlen, hmany, hwide⟩⟩
  rw [hchecks, tooManyGroups_iff, tenthGroupTooWide_iff, Group.payload_toNat]
  by_cases hpol : s.cfg.policy = .fault
  · simp only [hpol, true_and, true_implies]
    omega
  · simp [hpol]

/-- The check of R102 that fires at group `i`, each with the fault it raises. -/
inductive State.RaisesU64 (s : State) (i : Nat) : ErrCode → Prop
  /-- Line 1 (R103). -/
  | noGroup (hlen : s.len ≤ i) : s.RaisesU64 i .invalidEncoding
  /-- Line 2 (R105, item 2). -/
  | eleventhGroup (hpol : s.cfg.policy = .fault) (hlen : i < s.len) (hten : 10 ≤ i) : s.RaisesU64 i .overflow
  /-- Line 4 (R105, item 4). -/
  | tenthTooWide (hpol : s.cfg.policy = .fault) (hlen : i < s.len) (hnine : i = 9)
      (hwide : 2 ≤ (s.memRead i).toNat % 128) : s.RaisesU64 i .overflow

/-- R102: the check that fires ends the step with its fault. -/
theorem iterDecodeU64_of_raises {s : State} {e : ErrCode} (h : s.RaisesU64 s.idx e) :
    iterDecodeU64 s = .next (s.raise e) := by
  cases h with
  | noGroup hlen => exact if_pos hlen
  | eleventhGroup hpol hlen hten =>
    have hmany := (tooManyGroups_iff _ _).2 ⟨hpol, hten⟩
    rw [iterDecodeU64, if_neg hlen.not_ge, if_pos hmany]
  | tenthTooWide hpol hlen hnine hwide =>
    have hten : ¬ tooManyGroups s.cfg.policy s.idx = true := mt (tooManyGroups_iff _ _).1 fun ⟨_, h⟩ => by omega
    have hfires := (tenthGroupTooWide_iff _ _ (Group.payload (s.memRead s.idx))).2
      ⟨hpol, hnine, (Group.payload_toNat _).symm ▸ hwide⟩
    rw [iterDecodeU64, if_neg hlen.not_ge, if_neg hten]
    exact if_pos hfires

/-- R102 line 5, R151 in arithmetic: the payload merged at bit `7 IDX`. -/
theorem mergedU64_eq_or_ofNat (s : State) :
    mergedU64 s = s.a64 ||| BitVec.ofNat 64 ((s.memRead s.idx).toNat % 128 * 2 ^ (7 * s.idx)) := by
  have hp : (Group.payload (s.memRead s.idx)).toNat < 2 ^ 64 :=
    (Group.payload (s.memRead s.idx)).isLt.trans (by norm_num)
  refine congrArg (s.a64 ||| ·) (BitVec.eq_of_toNat_eq ?_)
  rw [shl64, BitVec.toNat_shiftLeft, BitVec.toNat_setWidth, Nat.mod_eq_of_lt hp, Nat.shiftLeft_eq, BitVec.toNat_ofNat,
    Group.payload_toNat]

/-- Settles O16: a group at which a check fires raises its fault; past the checks the payload is merged, and the
continuation bit says whether the command ends. -/
theorem decodeU64Iteration : Obligations.DecodeU64Iteration := by
  intro s hp
  rw [exec_decodeU64_run hp]
  refine ⟨fun hlen => iterDecodeU64_of_raises (.noGroup hlen),
    fun hlen hpol hten => iterDecodeU64_of_raises (.eleventhGroup hpol hlen hten),
    fun hlen hpol hnine hwide => iterDecodeU64_of_raises (.tenthTooWide hpol hlen hnine hwide), fun hlen hchecks => ?_⟩
  rw [iterDecodeU64_of_accepts (State.acceptsU64_iff.2 ⟨hlen, hchecks⟩), mergedU64_eq_or_ofNat, Group.cont_eq]
  constructor
  · intro hcont
    rw [decide_eq_true hcont, if_pos rfl]
  · intro hlast
    rw [decide_eq_false hlast.not_ge, if_neg Bool.false_ne_true]
    rfl

/-! ### The leading groups that continue (R107) -/

/-- R107: `c` is the index of the first group below `n` that does not continue, and `n` itself if there is none. -/
theorem leadingConts_spec (f : Nat → Byte) (n : Nat) :
    leadingConts f n ≤ n ∧ (∀ i < leadingConts f n, Group.cont (f i) = true) ∧
      (leadingConts f n < n → Group.cont (f (leadingConts f n)) = false) := by
  induction n with
  | zero => exact ⟨le_rfl, fun i hi => absurd hi i.not_lt_zero, fun h => absurd h (lt_irrefl 0)⟩
  | succ n ih =>
    obtain ⟨hle, hmore, hlast⟩ := ih
    rw [leadingConts]
    split
    case isTrue h =>
      obtain ⟨hall, hcont⟩ := h
      refine ⟨le_rfl, fun i hi => ?_, fun h => absurd h (lt_irrefl _)⟩
      rcases Nat.lt_succ_iff_lt_or_eq.1 hi with hi | rfl
      · exact hmore i (hall.symm ▸ hi)
      · exact hcont
    case isFalse h =>
      refine ⟨hle.trans n.le_succ, hmore, fun _ => ?_⟩
      rcases hle.lt_or_eq with hlt | heq
      · exact hlast hlt
      · rw [heq, ← Bool.not_eq_true]
        exact fun hcont => h ⟨heq, hcont⟩

/-! ### The run of `decodeU64` (R107) -/

/-- R102: the iteration at a group where a check fires. -/
theorem step_readU64_of_raises {s : State} {j : Nat} {e : ErrCode} (h : s.RaisesU64 j e) :
    step (s.readU64 j) = .next ((s.readU64 j).raise e) := by
  have hcode : decodeCmd (s.readU64 j).opr = .decodeU64 := decodeCmd_encode .decodeU64
  have hraise : (s.readU64 j).RaisesU64 (s.readU64 j).idx e := by
    cases h with
    | noGroup hlen => exact .noGroup hlen
    | eleventhGroup hpol hlen hten => exact .eleventhGroup hpol hlen hten
    | tenthTooWide hpol hlen hnine hwide => exact .tenthTooWide hpol hlen hnine hwide
  rw [step_of_run rfl rfl, hcode, exec_decodeU64_run rfl, iterDecodeU64_of_raises hraise]

/-- From the host's `CMD` write, `decodeU64` ends after its start and `k` iterations with `e` in `STATUS.ERR` and `v` in
`VAL`, and leaves all else as it was but `OPR`, `IDX`, `A64` and the agenda. -/
def State.EndsU64 (s : State) (k : Nat) (e : ErrCode) (v : Word64) : Prop :=
  ∃ i a, steps (k + 1) (s.issue .decodeU64) = .next { s with
    opr := 0b01#2, done := true, err := e, val := v, idx := i, a64 := a, agenda := [] }

section
variable {s : State} (hp : s.phase = .idle)
include hp

/-- R107: with a group below `LEN` that does not continue, and the groups up to it accepted, the command succeeds. -/
theorem State.endsU64_success {c : Nat} (hc : leadingConts s.memRead s.len = c) (hlen : c < s.len)
    (haccept : ∀ i ≤ c, s.AcceptsU64 i) : s.EndsU64 (c + 1) .none (s.sumU64 (c + 1)) := by
  obtain ⟨-, hmore, hlast⟩ := hc ▸ leadingConts_spec s.memRead s.len
  refine ⟨c, s.sumU64 (c + 1), ?_⟩
  rw [steps_decodeU64_ends hp haccept hmore (hlast hlen), hp]
  rfl

/-- R107: when the groups below `j` continue and are accepted, a check that fires at `j` ends the command, and `VAL`
keeps its value. -/
theorem State.endsU64_fault {j : Nat} {e : ErrCode} (hj : j ≤ leadingConts s.memRead s.len)
    (haccept : ∀ i < j, s.AcceptsU64 i) (hraise : s.RaisesU64 j e) : s.EndsU64 (j + 1) e s.val := by
  obtain ⟨-, hmore, -⟩ := leadingConts_spec s.memRead s.len
  have hreads := steps_decodeU64_reads hp fun i hi => ⟨haccept i hi, hmore i (hi.trans_le hj)⟩
  refine ⟨j, s.sumU64 j, ?_⟩
  rw [steps_add hreads, steps_succ_next (step_readU64_of_raises hraise), hp]
  rfl

end

/-- R105, R107: under policy `fault` an accepted group leaves the sum within 64 bits: nine groups hold 63 bits, and of
the tenth only the lowest payload bit is set. -/
theorem groupSum_lt_of_acceptsU64 {s : State} {j : Nat} (hpol : s.cfg.policy = .fault) (h : s.AcceptsU64 j) :
    groupSum s.memRead (j + 1) < 2 ^ 64 := by
  obtain ⟨-, hchecks⟩ := State.acceptsU64_iff.1 h
  obtain ⟨hten, hnine⟩ := hchecks hpol
  rcases hten.lt_or_eq with hlt | rfl
  · exact (groupSum_lt _ _).trans_le (Nat.pow_le_pow_right (by norm_num) (by omega))
  · have hbelow := groupSum_lt s.memRead 9
    have hpay := hnine rfl
    rw [groupSum, Group.payload_toNat]
    omega

/-- Settles O37: the rows of R107 in order. Each names the group at which the command ends: group `c`, read as the last
one, or the first group at which a check of R102 fires. -/
theorem decodeU64ClosedFormFault : Obligations.DecodeU64ClosedFormFault := by
  intro s hp hpol f c p9 ends
  have haccept : ∀ i, i < s.len → i ≤ 9 → (i = 9 → p9 < 2) → s.AcceptsU64 i := fun i hlen hi hnine =>
    State.acceptsU64_iff.2 ⟨hlen, fun _ => ⟨hi, fun h => h ▸ hnine h⟩⟩
  have hsuccess {t : Nat} (ht : c = t) (hlen : t < s.len) (hnine : t ≤ 9) (hp9 : t = 9 → p9 < 2) :
      groupSum f (t + 1) < 2 ^ 64 ∧ ends (t + 1) .none (BitVec.ofNat 64 (groupSum f (t + 1))) :=
    have hread : ∀ i ≤ t, s.AcceptsU64 i := fun i hi => haccept i (by omega) (by omega) fun _ => hp9 (by omega)
    ⟨groupSum_lt_of_acceptsU64 hpol (hread t le_rfl), State.endsU64_success hp ht hlen hread⟩
  refine ⟨fun hc hlen => ?_, fun hc hlen => ?_, fun hc hlen hwide => ?_, fun hc hlen hnine => ?_,
    fun hc hlen hnine => ?_, fun hc hlen hnine => ?_⟩
  · exact hsuccess rfl hlen (by omega) fun _ => by omega
  · exact State.endsU64_fault hp hc.ge (fun i hi => haccept i hi (by omega) fun _ => by omega) (.noGroup le_rfl)
  · exact State.endsU64_fault hp hc (fun i hi => haccept i (by omega) (by omega) fun _ => by omega)
      (.tenthTooWide hpol hlen rfl hwide)
  · exact hsuccess hc hlen le_rfl fun _ => hnine
  · exact State.endsU64_fault hp hc (fun i hi => haccept i (by omega) (by omega) fun _ => hnine) (.noGroup hlen.le)
  · exact State.endsU64_fault hp hc (fun i hi => haccept i (by omega) (by omega) fun _ => hnine)
      (.eleventhGroup hpol hlen le_rfl)

/-- Settles O38: under policy `truncate` every group below `LEN` is accepted, and `A64` holds the sum modulo `2^64`. -/
theorem decodeU64ClosedFormTruncate : Obligations.DecodeU64ClosedFormTruncate := by
  intro s hp hpol f c ends
  have haccept : ∀ i < s.len, s.AcceptsU64 i := fun i hlen =>
    State.acceptsU64_iff.2 ⟨hlen, fun hfault => by rw [hpol] at hfault; cases hfault⟩
  constructor
  · intro hlen
    have hmod : BitVec.ofNat 64 (groupSum f (c + 1) % 2 ^ 64) = s.sumU64 (c + 1) :=
      BitVec.eq_of_toNat_eq (Nat.mod_mod _ _)
    rw [hmod]
    exact State.endsU64_success hp rfl hlen fun i hi => haccept i (hi.trans_lt hlen)
  · exact fun hc => State.endsU64_fault hp hc.ge haccept (.noGroup le_rfl)

end Sys2Proof.Machine
end

section
/-! PROOFS. The signed encoder (R115 to R124): its start and iteration steps in arithmetic, and the run of
`encodeBigSigned` as a whole. -/

namespace Sys2Proof.Machine

/-! ### The steps of `encodeBigSigned` (R117, R118) -/

/-- R117: a negative zero is not below zero. -/
theorem State.bigNeg_eq_decide (s : State) : s.bigNeg = decide (s.big < 0) := by
  cases hneg : s.bigNeg with
  | true =>
    obtain ⟨hbig, hpos⟩ := State.big_of_bigNeg hneg
    exact (decide_eq_true (by omega)).symm
  | false =>
    have hbig := State.big_of_not_bigNeg hneg
    exact (decide_eq_false (by omega)).symm

/-- R159, as R117 uses it. -/
theorem twosComplement_eq (m : Nat) : twosComplement m = 2 ^ (8 * bytelen m) - m :=
  Nat.eq_sub_of_add_eq (twosComplement_add m)

/-- Settles O13: the start step is R173's common writes and R117's four, with `NEG` the sign of `value(BIG)` and the
complement of `BMAG` by its formula. -/
theorem encodeBigSignedStart : Obligations.EncodeBigSignedStart := by
  intro s hp
  rw [exec_encodeBigSigned_idle hp, startEncodeBigSigned, State.bigNeg_eq_decide, twosComplement_eq]
  simp only [decide_eq_true_eq]
  rfl

/-- R118 in arithmetic: the byte of an iteration is `W mod 128`, with `0x80` unless it is the last. -/
theorem iterEncodeBigSigned_eq {s : State} {last : Bool}
    (hlast : lastBig s.neg s.size (bigFilled s) (bigRem s) = last) :
    iterEncodeBigSigned s = .next (State.append { s with w := bigFilled s }
      (BitVec.ofNat 8 (s.w % 128 + if last then 0 else 128)) last) := by
  have hpay : (BitVec.ofNat 7 (bigRem s)).toNat = s.w % 128 := Nat.mod_mod s.w 128
  rw [iterEncodeBigSigned_next, hlast, Group.byte_eq, hpay]
  cases last <;> rfl

/-- Settles O17: an iteration is one `State.append`, which stores to the existing cell `IDX`. -/
theorem encodeBigSignedIteration : Obligations.EncodeBigSignedIteration := by
  intro s hp hcell r w1 last
  have hstore (b : Byte) : State.memWrite { s with w := bigFilled s } s.idx b =
      { s with w := bigFilled s, buf := Memory.put s.buf s.idx b } :=
    State.memWrite_present (s := { s with w := bigFilled s }) b hcell
  have hw1 : bigFilled s = w1 := bigFilled_eq s
  have hend : lastBig s.neg s.size (bigFilled s) (bigRem s) = true ↔ last := hw1 ▸ lastBig_iff s
  rw [exec_encodeBigSigned_run hp]
  constructor
  · intro hlast
    rw [iterEncodeBigSigned_eq (hend.2 hlast), State.append_last, hstore, hw1]
    rfl
  · intro hmore
    rw [iterEncodeBigSigned_eq (Bool.eq_false_iff.2 (mt hend.1 hmore)), State.append_more, hstore, hw1]
    rfl

/-! ### The run of `encodeBigSigned` (R124) -/

/-- `encodeBigSigned` under way or ended, with `n` in the working register `N`. -/
structure LatchedEncodeBigSigned (n : Word64) (s : State) : Prop where
  opr  : decodeCmd s.opr = .encodeBigSigned
  n_eq : s.n = n

theorem LatchedEncodeBigSigned.codecTurn {n : Word64} {s t : State} (h : LatchedEncodeBigSigned n s)
    (ht : Machine.codecTurn s = .next t) : LatchedEncodeBigSigned n t := by
  rcases codecTurn_cases s with ⟨-, hs⟩ | ⟨hp, hs⟩
  · cases hs.symm.trans ht
    exact h
  · rw [h.opr] at hs
    obtain ⟨-, -, -, hbig, -, hrun, -⟩ := encoderStepFrame .encodeBigSigned s t (.inr rfl) (hs.symm.trans ht)
    obtain ⟨hn, -⟩ := hbig rfl
    obtain ⟨hopr, -⟩ := hrun hp
    exact ⟨hopr ▸ h.opr, hn.trans h.n_eq⟩

/-- R124: `encodeBigSigned` at its first group writes all groups of the value, and leaves `N` as it was. -/
theorem Encoding.steps_end_encodeBigSigned {n : Int} {k : Nat} {s : State} (h : Encoding n k s) (h0 : s.idx = 0)
    (hc : decodeCmd s.opr = .encodeBigSigned) :
    ∃ w, Machine.steps k s = .next (State.finish { s.withGroups n k k s.n w with len := k, idx := k - 1 }) := by
  obtain ⟨x, w, hsteps⟩ := h.steps_end h0
  obtain ⟨-, hx⟩ := steps_keep LatchedEncodeBigSigned.codecTurn k h.agenda ⟨hc, rfl⟩ hsteps
  cases show x = s.n from hx
  exact ⟨w, hsteps⟩

/-- Settles O39: the start leaves `encodeBigSigned` at its first group, and its run ends with the least number of groups
that `value(BIG)` fits; what is left of the value for the last of them fits seven bits. -/
theorem encodeBigSignedClosedForm : Obligations.EncodeBigSignedClosedForm := by
  intro s k hp hcfg hmag hk
  have hrun := encoding_startEncodeBigSigned (s := { s with agenda := [] }) hcfg hmag rfl hk
  obtain ⟨w, hsteps⟩ := hrun.steps_end_encodeBigSigned rfl (decodeCmd_startStep .encodeBigSigned _)
  obtain ⟨hone, hfit, -⟩ := hk
  refine ⟨⟨w, ?_⟩, groupOf_sign_last (by rwa [Nat.sub_add_cancel hone])⟩
  rw [steps_succ_next (step_issue hp .encodeBigSigned), hp]
  exact hsteps

end Sys2Proof.Machine
end

section
/-! PROOFS. The signed decoder (R135 to R142): the magnitude of a negative result (R140), the start and iteration steps
in arithmetic, the run of `decodeBigSigned` as a whole, and the round trip with `encodeBigSigned`. -/

namespace Sys2Proof.Machine

/-! ### The magnitude of a negative result (R140, R161) -/

theorem le_padWidth (t : Nat) : t ≤ padWidth t := by
  rw [padWidth]
  omega

theorem two_pow_padWidth_sub (t : Nat) : 2 ^ padWidth t - 2 ^ t = (2 ^ (padWidth t - t) - 1) * 2 ^ t := by
  rw [Nat.sub_mul, one_mul, ← pow_add, Nat.sub_add_cancel (le_padWidth t)]

/-- R161: the bits set are those of one mask. -/
theorem signPad8_eq_or (a t : Nat) : signPad8 a t = a ||| (2 ^ padWidth t - 2 ^ t) := by
  refine Nat.eq_of_testBit_eq fun j => ?_
  rw [signPad8, testBit_setbits, two_pow_padWidth_sub, Nat.testBit_or, Nat.testBit_mul_two_pow,
    Nat.testBit_two_pow_sub_one, ← Bool.decide_and]
  congr 1
  rw [decide_eq_decide]
  omega

/-- R161: where the accumulator has no bit at `t` or above, setting the bits is adding the mask. -/
theorem signPad8_eq_add {a t : Nat} (h : a < 2 ^ t) : signPad8 a t = a + (2 ^ padWidth t - 2 ^ t) := by
  rw [signPad8_eq_or, two_pow_padWidth_sub, ← Nat.shiftLeft_eq, Nat.or_comm, ← Nat.shiftLeft_add_eq_or_of_lt h,
    Nat.add_comm]

section
variable {a t : Nat} (lo : 2 ^ (t - 1) ≤ a) (hi : a < 2 ^ t)
include lo hi

/-- R140: with the top bit of the accumulator set, the padded value has no leading zero bit. -/
theorem bitlen_signPad8 : bitlen (signPad8 a t) = padWidth t := by
  have hpad := signPad8_eq_add hi
  have hle : 2 ^ t ≤ 2 ^ padWidth t := Nat.pow_le_pow_right (by norm_num) (le_padWidth t)
  have ht : 0 < t := Nat.pos_of_ne_zero fun h => by rw [h] at lo hi; omega
  have hhalf : 2 ^ t = 2 * 2 ^ (t - 1) := by rw [← pow_succ', Nat.sub_add_cancel ht]
  have hhalf' : 2 ^ padWidth t = 2 * 2 ^ (padWidth t - 1) := by
    rw [← pow_succ', Nat.sub_add_cancel (ht.trans_le (le_padWidth t))]
  have hupper := (bitlen_le_iff (signPad8 a t) (padWidth t)).2 (by omega)
  have hlower := mt (bitlen_le_iff (signPad8 a t) (padWidth t - 1)).1 (by omega)
  omega

/-- R140, R161: the padded value has exactly the bytes it was padded to. -/
theorem bytelen_signPad8 : bytelen (signPad8 a t) = padWidth t / 8 := by
  rw [bytelen, bitlen_signPad8 lo hi, padWidth]
  omega

/-- R140, R159: padding and complementing is subtracting from `2^t`. -/
theorem twosComplement_signPad8 : twosComplement (signPad8 a t) = 2 ^ t - a := by
  have hwidth : 8 * (padWidth t / 8) = padWidth t := by
    rw [padWidth]
    omega
  have hle : 2 ^ t ≤ 2 ^ padWidth t := Nat.pow_le_pow_right (by norm_num) (le_padWidth t)
  rw [twosComplement_eq, bytelen_signPad8 lo hi, hwidth, signPad8_eq_add hi]
  omega

end

/-- Settles O55: the padded value is `a + 2^Wd - 2^(7k)`, and `Wd` bits are what its complement is taken over. -/
theorem negativeResultMagnitude : Obligations.NegativeResultMagnitude := by
  intro a k hk lo hi
  have hhalf : 2 ^ (7 * k) = 2 * 2 ^ (7 * k - 1) := by rw [← pow_succ', Nat.sub_add_cancel (by omega)]
  exact ⟨twosComplement_signPad8 lo hi, by omega, by omega, bytelen_signPad8 lo hi⟩

/-! ### The steps of `decodeBigSigned` (R136, R137) -/

/-- Settles O14: the start step is R173's common writes and R136's two. -/
theorem decodeBigSignedStart : Obligations.DecodeBigSignedStart := fun _ h => exec_decodeBigSigned_idle h

/-- R137: an iteration at a group below `LEN`, with the merged accumulator and the result as worked out, goes on, ends
with a result that fits, or raises `CapacityExceeded`. -/
theorem iterDecodeBigSigned_of_lt {s : State} {a mg : Nat} {sg : Bool} (hlen : s.idx < s.len)
    (hmerged : mergedBig s = a) (hended : endedBig s = (sg, mg)) :
    iterDecodeBigSigned s = .next (
      if Group.cont (s.memRead s.idx) then { s with acc := a, idx := s.idx + 1 }
      else if s.magFits mg then State.finish { s with acc := a, bsign := sg, bmag := mg }
      else s.raise .capacityExceeded) := by
  rcases iterDecodeBigSigned_cases s with ⟨hend, -⟩ | ⟨-, hcont, hs⟩ | ⟨-, hcont, hfits, hs⟩ | ⟨-, hcont, hfits, hs⟩
  · exact absurd hlen hend.not_gt
  · rw [hs, if_pos hcont, hmerged]
  · rw [hended] at hfits hs
    rw [hs, hcont, if_neg Bool.false_ne_true, if_pos hfits, hmerged]
  · rw [hended] at hfits
    rw [hs, hcont, hfits, if_neg Bool.false_ne_true, if_neg Bool.false_ne_true]

/-- R137 line 1. -/
theorem iterDecodeBigSigned_of_ge {s : State} (h : s.len ≤ s.idx) :
    iterDecodeBigSigned s = .next (s.raise .invalidEncoding) := if_pos h

/-- R138 in arithmetic: the payload merged at bit `7 IDX`. -/
theorem mergedBig_eq_or (s : State) :
    mergedBig s = s.acc ||| (s.memRead s.idx).toNat % 128 * 2 ^ (7 * s.idx) := by
  rw [mergedBig, Group.payload_toNat, Nat.shiftLeft_eq]

/-- R139, R140 in arithmetic: a terminating group of 64 or more makes the result negative. -/
theorem bigResult_eq (a i : Nat) (b : Byte) :
    bigResult a i b = (decide (64 ≤ b.toNat % 128),
      if b.toNat % 128 < 64 then a else twosComplement (signPad8 a (7 * (i + 1)))) := by
  rw [bigResult, Group.sign_eq]
  by_cases hsign : 64 ≤ b.toNat % 128
  · rw [decide_eq_true hsign, if_pos rfl, if_neg hsign.not_gt]
  · rw [decide_eq_false hsign, if_neg Bool.false_ne_true, if_pos (Nat.lt_of_not_le hsign)]

/-- Settles O18: past the length check the continuation bit says whether the group is the last, and the magnitude check
whether the result is written. -/
theorem decodeBigSignedIteration : Obligations.DecodeBigSignedIteration := by
  intro s hp
  rw [exec_decodeBigSigned_run hp]
  refine ⟨iterDecodeBigSigned_of_ge, fun hlen => ?_⟩
  intro b a mg
  have hmerged : mergedBig s = a := mergedBig_eq_or s
  have hended : endedBig s = (decide (64 ≤ b % 128), mg) := by rw [endedBig, hmerged, bigResult_eq]
  rw [iterDecodeBigSigned_of_lt hlen hmerged hended, Group.cont_eq]
  refine ⟨fun hcont => ?_, fun hlast hfits => ?_, fun hlast hfits => ?_⟩
  · rw [decide_eq_true hcont, if_pos rfl]
  · rw [decide_eq_false hlast.not_ge, if_neg Bool.false_ne_true, if_pos (show s.magFits mg = true from hfits),
      Nat.mod_eq_of_lt hlast]
    rfl
  · have hwide : ¬ s.magFits mg = true := Bool.eq_false_iff.1 hfits
    rw [decide_eq_false hlast.not_ge, if_neg Bool.false_ne_true, if_neg hwide]
    rfl

/-! ### The value of a signed sequence (R73) -/

/-- R73, R142: the payloads of groups `0 .. c` as a two's complement number of width `7(c+1)`. -/
def signedSum (f : Nat → Byte) (c : Nat) : Int :=
  (groupSum f (c + 1) : Int) - if Group.sign (f c) then 2 ^ (7 * (c + 1)) else 0

/-- `signedSum` is the value of R73 of the groups as a list. -/
theorem signedValue_map_range (f : Nat → Byte) (c : Nat) :
    signedValue ((List.range (c + 1)).map f) = signedSum f c := by
  have hbyte : ∀ i < c + 1, byteAt ((List.range (c + 1)).map f) i = f i := fun i hi => by simp [byteAt, hi]
  rw [signedValue, unsignedValue, List.length_map, List.length_range, Nat.add_sub_cancel, hbyte c c.lt_succ_self,
    groupSum_congr _ hbyte, signedSum]

/-- A set sign bit is the top bit of the sum. -/
theorem two_pow_le_groupSum {f : Nat → Byte} {c : Nat} (h : Group.sign (f c) = true) :
    2 ^ (7 * (c + 1) - 1) ≤ groupSum f (c + 1) := by
  have hpay : 64 ≤ (Group.payload (f c)).toNat := by
    rw [Group.sign_eq, decide_eq_true_eq] at h
    rwa [Group.payload_toNat]
  calc 2 ^ (7 * (c + 1) - 1) = 64 * 2 ^ (7 * c) := by
        rw [show 7 * (c + 1) - 1 = 6 + 7 * c by omega, pow_add]
        norm_num
    _ ≤ (Group.payload (f c)).toNat * 2 ^ (7 * c) := Nat.mul_le_mul_right _ hpay
    _ ≤ groupSum f (c + 1) := Nat.le_add_left _ _

/-- R139, R140: the decoder's result is the sign and magnitude of R73's value. -/
theorem bigResult_groupSum (f : Nat → Byte) (c : Nat) :
    bigResult (groupSum f (c + 1)) c (f c) = (decide (signedSum f c < 0), (signedSum f c).natAbs) := by
  rw [bigResult, signedSum]
  cases hsign : Group.sign (f c) with
  | false => simp
  | true =>
    have hlo := two_pow_le_groupSum hsign
    have hhi := groupSum_lt f (c + 1)
    have hneg : (groupSum f (c + 1) : Int) - 2 ^ (7 * (c + 1)) =
        -((2 ^ (7 * (c + 1)) - groupSum f (c + 1) : Nat) : Int) := by
      rw [Nat.cast_sub hhi.le]
      push_cast
      ring
    rw [if_pos rfl, if_pos rfl, twosComplement_signPad8 hlo hhi, hneg, Int.natAbs_neg, Int.natAbs_natCast,
      decide_eq_true (by omega)]

/-! ### The run of `decodeBigSigned` (R142) -/

/-- `decodeBigSigned`, started in `s` by a host with nothing else to do, after it has read the first `j` groups. -/
def State.readBig (s : State) (j : Nat) : State :=
  { startDecodeBigSigned { s with agenda := [] } with acc := groupSum s.memRead j, idx := j }

/-- From the host's `CMD` write, `decodeBigSigned` ends after its start and `k` iterations with `e` in `STATUS.ERR` and
`BIG` as given, and leaves all else as it was but `OPR`, `IDX`, `ACC` and the agenda. -/
def State.EndsBig (s : State) (k : Nat) (e : ErrCode) (sg : Bool) (mg : Nat) : Prop :=
  ∃ i a, steps (k + 1) (s.issue .decodeBigSigned) = .next { s with
    opr := 0b11#2, done := true, err := e, bsign := sg, bmag := mg, idx := i, acc := a, agenda := [] }

section
variable {s : State} {j : Nat}

theorem step_readBig_eq_iter : step (s.readBig j) = iterDecodeBigSigned (s.readBig j) := by
  have hcode : decodeCmd (s.readBig j).opr = .decodeBigSigned := decodeCmd_encode .decodeBigSigned
  rw [step_of_run rfl rfl, hcode, exec_decodeBigSigned_run rfl]

/-- R137 to R141: the iteration at a group below `LEN`. -/
theorem step_readBig (hlen : j < s.len) :
    step (s.readBig j) = .next (
      if Group.cont (s.memRead j) then s.readBig (j + 1)
      else if s.magFits (signedSum s.memRead j).natAbs then
        State.finish { s.readBig (j + 1) with
          idx := j, bsign := decide (signedSum s.memRead j < 0), bmag := (signedSum s.memRead j).natAbs }
      else (s.readBig j).raise .capacityExceeded) := by
  have hmerged : mergedBig (s.readBig j) = groupSum s.memRead (j + 1) := mergedBig_eq rfl
  have hended : endedBig (s.readBig j) = (decide (signedSum s.memRead j < 0), (signedSum s.memRead j).natAbs) := by
    rw [endedBig, hmerged]
    exact bigResult_groupSum s.memRead j
  rw [step_readBig_eq_iter, iterDecodeBigSigned_of_lt hlen hmerged hended]
  rfl

variable (hp : s.phase = .idle)
include hp

/-- R142: `decodeBigSigned` reads on while there are groups and they continue. -/
theorem steps_decodeBigSigned_reads (hlen : j ≤ s.len) (hmore : ∀ i < j, Group.cont (s.memRead i) = true) :
    steps (j + 1) (s.issue .decodeBigSigned) = .next (s.readBig j) := by
  induction j with
  | zero => exact steps_succ_next (step_issue hp .decodeBigSigned)
  | succ j ih =>
    have hstep := step_readBig hlen
    rw [if_pos (hmore j j.lt_succ_self)] at hstep
    rw [steps_add (ih (by omega) fun i hi => hmore i (by omega)), steps_succ_next hstep]
    rfl

/-- R142: with every group below `LEN` continuing, the command ends with `InvalidEncoding`. -/
theorem State.endsBig_invalid (hmore : ∀ i < s.len, Group.cont (s.memRead i) = true) :
    s.EndsBig (s.len + 1) .invalidEncoding s.bsign s.bmag := by
  have hstep := step_readBig_eq_iter.trans (iterDecodeBigSigned_of_ge (s := s.readBig s.len) le_rfl)
  refine ⟨s.len, groupSum s.memRead s.len, ?_⟩
  rw [steps_add (steps_decodeBigSigned_reads hp le_rfl hmore), steps_succ_next hstep, hp]
  rfl

section
variable (hlen : j < s.len) (hmore : ∀ i < j, Group.cont (s.memRead i) = true)
  (hlast : Group.cont (s.memRead j) = false)
include hlen hmore hlast

/-- R142: at the first group that does not continue the command ends with the value of R73 in `BIG`, if it fits. -/
theorem State.endsBig_value (hfits : s.magFits (signedSum s.memRead j).natAbs = true) :
    s.EndsBig (j + 1) .none (decide (signedSum s.memRead j < 0)) (signedSum s.memRead j).natAbs := by
  have hstep := step_readBig hlen
  rw [hlast, if_neg Bool.false_ne_true, if_pos hfits] at hstep
  refine ⟨j, groupSum s.memRead (j + 1), ?_⟩
  rw [steps_add (steps_decodeBigSigned_reads hp hlen.le hmore), steps_succ_next hstep, hp]
  rfl

/-- R141, R142: a value that does not fit leaves `BIG` as it was. -/
theorem State.endsBig_capacity (hfits : s.magFits (signedSum s.memRead j).natAbs = false) :
    s.EndsBig (j + 1) .capacityExceeded s.bsign s.bmag := by
  have hstep := step_readBig hlen
  rw [hlast, hfits, if_neg Bool.false_ne_true, if_neg Bool.false_ne_true] at hstep
  refine ⟨j, groupSum s.memRead j, ?_⟩
  rw [steps_add (steps_decodeBigSigned_reads hp hlen.le hmore), steps_succ_next hstep, hp]
  rfl

end

end

/-- Settles O40: group `c` is the first that does not continue, or there is none below `LEN`. -/
theorem decodeBigSignedClosedForm : Obligations.DecodeBigSignedClosedForm := by
  intro s hp f c v ends
  obtain ⟨-, hmore, hlast⟩ := leadingConts_spec s.memRead s.len
  refine ⟨fun hc => ?_, fun hlen hfits => ?_, fun hlen hfits => ?_⟩
  · exact State.endsBig_invalid hp fun i hi => hmore i (hi.trans_eq hc.symm)
  · exact State.endsBig_value hp hlen hmore (hlast hlen) hfits
  · exact State.endsBig_capacity hp hlen hmore (hlast hlen) hfits

/-! ### The round trip (R124, R142) -/

/-- R21: the sign and the magnitude of a value make it up. -/
theorem State.big_of_sign_natAbs {s : State} {n : Int} (hsign : s.bsign = decide (n < 0)) (hmag : s.bmag = n.natAbs) :
    s.big = n := by
  rw [State.big, hsign, hmag]
  simp only [decide_eq_true_eq]
  split <;> omega

/-- R124, R142: `decodeBigSigned` run on the `k` groups of a value that fits them and `MAGBITS`, whatever else the state
holds. -/
theorem State.endsBig_groupList {s : State} {n : Int} (hp : s.phase = .idle) (hone : 1 ≤ s.len)
    (hlist : (List.range s.len).map s.memRead = groupList n s.len) (hfit : fitsGroups n s.len)
    (hmag : s.magFits n.natAbs = true) : s.EndsBig s.len .none (decide (n < 0)) n.natAbs := by
  obtain ⟨j, hj⟩ := Nat.exists_eq_add_of_le' hone
  have hcont : ∀ i < s.len, Group.cont (s.memRead i) = decide (i < j) := fun i hi => by
    have hgroup := List.map_inj_left.1 hlist i (List.mem_range.2 hi)
    rw [hgroup, groupOf_cont, hj, decide_eq_decide, Nat.add_lt_add_iff_right]
  have hvalue : signedSum s.memRead j = n := by
    rw [← signedValue_map_range, ← hj, hlist, signedValue_groupList hone hfit]
  have hends := State.endsBig_value hp (j := j) (by omega)
    (fun i hi => (hcont i (by omega)).trans (decide_eq_true hi))
    ((hcont j (by omega)).trans (decide_eq_false (lt_irrefl j))) (hvalue.symm ▸ hmag)
  rwa [hvalue, ← hj] at hends

/-- R124: `encodeBigSigned` leaves the least number of groups of `value(BIG)` in the buffer. -/
theorem steps_encodeBigSigned_groupList {s : State} {k : Nat} (hp : s.phase = .idle) (hcfg : s.cfg.wellFormed = true)
    (hmag : s.magFits s.bmag = true) (hk : leastGroups s.big k) :
    ∃ t, steps (k + 1) (s.issue .encodeBigSigned) = .next t ∧ t.phase = .idle ∧ t.done = true ∧ t.cfg = s.cfg ∧
      t.len = k ∧ (List.range t.len).map t.memRead = groupList s.big t.len := by
  obtain ⟨⟨w, hsteps⟩, -⟩ := encodeBigSignedClosedForm s k hp hcfg hmag hk
  exact ⟨_, hsteps, hp, rfl, rfl, rfl, memRead_groupList rfl⟩

/-- Settles O42: the groups that `encodeBigSigned` leaves have the value of `BIG`, and a write of `BIG` leaves them
there. -/
theorem bigSignedRoundTrip : Obligations.BigSignedRoundTrip := by
  intro s sg mg hp hcfg hmag
  have hk := leastGroups_signedLen s.big
  obtain ⟨t, hencode, hidle, hdone, htcfg, hlen, hlist⟩ := steps_encodeBigSigned_groupList hp hcfg hmag hk
  obtain ⟨hone, hfit, -⟩ := hk
  have hfits : t.magFits s.big.natAbs = true := by rwa [State.magFits, htcfg, s.big_natAbs]
  obtain ⟨i, a, hdecode⟩ := State.endsBig_groupList (s := { t with bsign := sg, bmag := mg })
    hidle (hlen.symm ▸ hone) hlist (hlen.symm ▸ hfit) hfits
  exact ⟨_, _, t, _, Nat.succ_pos _, Nat.succ_pos _, hencode, hidle, hdone, hdecode, hidle, rfl, rfl,
    s.bigNeg_eq_decide.symm, s.big_natAbs, State.big_of_sign_natAbs rfl rfl⟩

end Sys2Proof.Machine
end

section
/-! PROOFS. The helper units of 44_helpers.md in arithmetic: the sizes (R150), the 64-bit shifters (R151, R152, R164),
the bytes of a natural and the two's complement (R157 to R159), and the two sign extensions (R160, R161). -/

namespace Sys2Proof.Machine

/-! ### Sizes (R150) -/

/-- R150: no byte of the shortest representation is spare. -/
theorem bytelen_lt_bitlen_add (m : Nat) : 8 * bytelen m < bitlen m + 8 := by
  rw [bytelen]
  omega

/-- Settles O49: `bitlen m` is the least number of bits that hold `m`, and `bytelen m` an eighth of it rounded up. -/
theorem bitlenBytelen : Obligations.BitlenBytelen :=
  ⟨rfl, rfl, fun m hm => ⟨two_pow_le_of_bitlen hm, lt_two_pow_bitlen m, bitlen_pos hm⟩,
    fun m => ⟨bitlen_le_bytelen m, bytelen_lt_bitlen_add m⟩⟩

/-! ### The 64-bit shifters (R151, R152, R164) -/

/-- R151: bits that reach position 64 are dropped. -/
theorem shl64_toNat (v : Word64) (s : Nat) : (shl64 v s).toNat = v.toNat * 2 ^ s % 2 ^ 64 := by
  rw [shl64, BitVec.toNat_shiftLeft, Nat.shiftLeft_eq]

/-- R152: the right shift leaves 0 exactly for a value of one group. -/
theorem shr64_eq_zero_iff (v : Word64) : shr64 v = 0 ↔ v.toNat < 128 := by
  rw [← BitVec.toNat_inj, shr64_toNat]
  exact Nat.div_eq_zero_iff_lt (by norm_num)

/-- R164: a left shift of a payload loses a bit exactly when the product does not fit 64 bits. -/
theorem shl64_payload_ne_iff (p : Payload) (s : Nat) :
    (shl64 (p.setWidth 64) s).toNat ≠ p.toNat * 2 ^ s ↔ 2 ^ 64 ≤ p.toNat * 2 ^ s := by
  have hp : p.toNat < 2 ^ 64 := p.isLt.trans (by norm_num)
  rw [shl64_toNat, BitVec.toNat_setWidth, Nat.mod_eq_of_lt hp, ne_eq, Nat.mod_eq_iff_lt (by norm_num), not_lt]

/-- Settles O50: the left shifter multiplies modulo `2^64`, the right one divides by 128. -/
theorem shifters64 : Obligations.Shifters64 :=
  ⟨fun v s _ => shl64_toNat v s, fun _ _ hs => BitVec.shiftLeft_eq_zero hs, shr64_toNat, shr64_eq_zero_iff,
    fun p s _ => shl64_payload_ne_iff p s⟩

/-! ### The bytes of a natural (R157, R158) -/

theorem toBytesBE_length (m : Nat) : (toBytesBE m).length = bytelen m := bytesBE_length m _

theorem lt_two_pow_bytelen (m : Nat) : m < 2 ^ (8 * bytelen m) := (bitlen_le_iff m _).1 (bitlen_le_bytelen m)

/-- R157: the shortest representation has room for all of `m`. -/
theorem fromBytesBE_toBytesBE (m : Nat) : fromBytesBE (toBytesBE m) = m := by
  have hm : m < 256 ^ bytelen m := (lt_two_pow_bytelen m).trans_eq (pow_mul 2 8 _)
  rw [toBytesBE, fromBytesBE_bytesBE, Nat.mod_eq_of_lt hm]

theorem fromBytesBE_zero_cons (bs : List Byte) : fromBytesBE (0 :: bs) = fromBytesBE bs := by
  rw [fromBytesBE_cons, BitVec.ofNat_eq_ofNat, BitVec.toNat_ofNat, Nat.zero_mod, Nat.zero_mul, Nat.zero_add]

theorem fromBytesBE_lt (bs : List Byte) : fromBytesBE bs < 256 ^ bs.length := by
  induction bs with
  | nil => exact Nat.one_pos
  | cons b bs ih =>
    have hb : b.toNat + 1 ≤ 256 := b.isLt
    calc fromBytesBE (b :: bs) < (b.toNat + 1) * 256 ^ bs.length := by
          rw [fromBytesBE_cons, Nat.succ_mul]
          omega
      _ ≤ 256 * 256 ^ bs.length := Nat.mul_le_mul_right _ hb
      _ = 256 ^ (b :: bs).length := (pow_succ' 256 bs.length).symm

/-- R157: a leading zero byte could be left out, so the shortest representation has none. -/
theorem toBytesBE_head_ne_zero {m : Nat} {b : Byte} {rest : List Byte} (h : toBytesBE m = b :: rest) : b ≠ 0 := by
  rintro rfl
  have hlen : rest.length + 1 = bytelen m := by rw [← toBytesBE_length, h, List.length_cons]
  have hlt : m < 2 ^ (8 * rest.length) :=
    calc m = fromBytesBE rest := by rw [← fromBytesBE_zero_cons, ← h, fromBytesBE_toBytesBE]
      _ < 256 ^ rest.length := fromBytesBE_lt rest
      _ = 2 ^ (8 * rest.length) := (pow_mul 2 8 _).symm
  have hbits := (bitlen_le_iff m _).2 hlt
  have hbytes := bytelen_lt_bitlen_add m
  omega

/-- R158: the inverted bytes are one less than the complement. -/
theorem flipBytes_add (m : Nat) : flipBytes m + 1 + m = 2 ^ (8 * bytelen m) := twosComplement_add m

/-- Settles O51: `toBytesBE` gives `bytelen m` bytes, which hold all of `m` and begin with one that is not 0. -/
theorem byteExportImport : Obligations.ByteExportImport := fun m =>
  ⟨toBytesBE_length m, fromBytesBE_toBytesBE m, fun _ _ => toBytesBE_head_ne_zero, fromBytesBE_zero_cons,
    flipBytes_add m⟩

/-! ### The two's complement (R159) -/

theorem twosComplement_lt {m : Nat} (h : 0 < m) : twosComplement m < 2 ^ (8 * bytelen m) := by
  have hsum := twosComplement_add m
  omega

/-- R159: complementing twice takes the powers of two byte counts, and gives `m` back when they are the same. -/
theorem twosComplement_twosComplement_eq_iff (m : Nat) :
    twosComplement (twosComplement m) = m ↔ bytelen (twosComplement m) = bytelen m := by
  have hfirst := twosComplement_add m
  have hsecond := twosComplement_add (twosComplement m)
  have hpow : 2 ^ (8 * bytelen (twosComplement m)) = 2 ^ (8 * bytelen m) ↔
      8 * bytelen (twosComplement m) = 8 * bytelen m := Nat.pow_right_inj (by norm_num)
  omega

/-- Settles O52: complement and magnitude add up to `2^(8 bytelen m)`, from which the rest follows. -/
theorem twosComplementLaws : Obligations.TwosComplementLaws :=
  ⟨twosComplement_eq, fun m hm => ⟨twosComplement_pos m, twosComplement_lt hm⟩, fun _ _ => twosComplement_emod,
    fun m _ => twosComplement_twosComplement_eq_iff m, by decide, by decide, by decide⟩

/-! ### The sign extensions (R160, R161) -/

theorem testBit_signFill7 (q size j : Nat) :
    (signFill7 q size).testBit j = (q.testBit j || decide (max size 7 - 7 ≤ j ∧ j < max size 7)) := by
  rw [signFill7, testBit_setbits, Nat.sub_add_cancel (le_max_right size 7)]

/-- Settles O53: the seven bits set are those of one mask. -/
theorem signFillSetsSevenBits : Obligations.SignFillSetsSevenBits := fun q size =>
  ⟨by rw [signFill7_eq, Nat.shiftLeft_eq], testBit_signFill7 q size⟩

theorem padWidth_lt (t : Nat) : padWidth t < t + 8 := by
  rw [padWidth]
  omega

theorem padWidth_mod_eight (t : Nat) : padWidth t % 8 = 0 := Nat.mul_mod_right 8 _

theorem testBit_signPad8 (a t j : Nat) :
    (signPad8 a t).testBit j = (a.testBit j || decide (t ≤ j ∧ j < padWidth t)) := by
  rw [signPad8, testBit_setbits, Nat.add_sub_cancel' (le_padWidth t)]

/-- Settles O54: the bits set are those of one mask, which is added where the accumulator has no bit at `T` or above. -/
theorem signPadFillsTheLastByte : Obligations.SignPadFillsTheLastByte := fun a t =>
  ⟨le_padWidth t, padWidth_lt t, padWidth_mod_eight t, signPad8_eq_or a t, testBit_signPad8 a t, fun ha => by
    have hle : 2 ^ t ≤ 2 ^ padWidth t := Nat.pow_le_pow_right (by norm_num) (le_padWidth t)
    rw [signPad8_eq_add ha, Nat.add_sub_assoc hle]⟩

end Sys2Proof.Machine
end

section
/-! PROOFS. Independence from the byte length (R166): `encodeBigSigned` reads of `W` only the bits below
`max(SIZE, 7)`, and on those the two's complement is the same over any sufficient number of bytes. -/

namespace Sys2Proof.Machine

/-- R159, R166: a power of two minus `m` is `-m` on the bits below that power. -/
theorem two_pow_sub_emod {m k l : Nat} (hm : m ≤ 2 ^ l) (hk : k ≤ l) :
    ((2 ^ l - m : Nat) : Int) % 2 ^ k = -(m : Int) % 2 ^ k := by
  obtain ⟨d, hd⟩ : (2 : Int) ^ k ∣ 2 ^ l := pow_dvd_pow 2 hk
  rw [Nat.cast_sub hm, Nat.cast_pow, Nat.cast_ofNat, hd, sub_eq_neg_add, Int.add_mul_emod_self_left]

/-- R159, R166: the two's complement over any sufficient number of bytes has the low bits of the shortest. -/
theorem two_pow_sub_emod_twosComplement {m k l : Nat} (hl : bytelen m ≤ l) (hk : k ≤ 8 * bytelen m) :
    ((2 ^ (8 * l) - m : Nat) : Int) % 2 ^ k = (twosComplement m : Int) % 2 ^ k := by
  have hbits : 8 * bytelen m ≤ 8 * l := Nat.mul_le_mul_left 8 hl
  have hm : m ≤ 2 ^ (8 * l) := (lt_two_pow_bytelen m).le.trans (Nat.pow_le_pow_right (by norm_num) hbits)
  rw [two_pow_sub_emod hm (hk.trans hbits), twosComplement_emod hk]

/-- R166: of a negative value's `W` only the bits below `max(SIZE, 7)` matter to the command under way. -/
theorem encodingBig_of_emod_eq {s : State} {w : Nat} (h : encodingBig s) (hneg : s.neg = true)
    (hw : (w : Int) % 2 ^ max s.size 7 = s.w % 2 ^ max s.size 7) : encodingBig { s with w := w } := by
  obtain ⟨hsize, hbn, hidx, -, hmod⟩ := h
  exact ⟨hsize, hbn, hidx, fun hpos => absurd hneg (ne_true_of_eq_false hpos), hw.trans hmod⟩

/-- R117, R166: the start step could take the two's complement over any sufficient number of bytes. -/
theorem encodingBig_start_of_bytelen_le {s : State} {l : Nat} (hneg : s.bigNeg = true) (hl : bytelen s.bmag ≤ l) :
    encodingBig { startEncodeBigSigned s with w := 2 ^ (8 * l) - s.bmag } := by
  refine encodingBig_of_emod_eq (encodingBig_start s) hneg ?_
  have hk : max (bitlen s.bmag) 7 ≤ 8 * bytelen s.bmag := by
    obtain ⟨-, hpos⟩ := State.big_of_bigNeg hneg
    have hbits := bitlen_pos hpos
    have hbytes := bitlen_le_bytelen s.bmag
    omega
  have hw : (startEncodeBigSigned s).w = twosComplement s.bmag := if_pos hneg
  rw [hw]
  exact two_pow_sub_emod_twosComplement hl hk

/-- Settles O56: from either `W` the command is under way with the same value, and so appends the same groups. -/
theorem byteLengthIndependence : Obligations.ByteLengthIndependence := by
  intro s l _ hcfg hmag hneg hl s0
  have hk := leastGroups_signedLen s.big
  have hrun : Encoding s.big (signedLen s.big) s0 :=
    encoding_startEncodeBigSigned (s := { s with agenda := [] }) hcfg hmag rfl hk
  have hrun' : Encoding s.big (signedLen s.big) { s0 with w := 2 ^ (8 * l) - s.bmag } :=
    { hrun with
      task := .inr ⟨decodeCmd_startStep .encodeBigSigned s,
        encodingBig_start_of_bytelen_le (s := { s with agenda := [] }) hneg hl, rfl, hk⟩ }
  obtain ⟨x, w, hsteps⟩ := hrun.steps_end rfl
  obtain ⟨x', w', hsteps'⟩ := hrun'.steps_end rfl
  exact ⟨_, _, _, hsteps, hsteps', rfl, rfl, rfl, rfl⟩

end Sys2Proof.Machine
end

section
/-! PROOFS. The sequencer (R170 to R174, R180): which step the machine takes in each phase, what every start writes,
that a step always answers, and the bound on a running command, whose measure is `commandBound - IDX`. -/

namespace Sys2Proof.Machine

/-! ### Who moves (R82, R170, R174) -/

theorem codecTurn_of_idle {s : State} (h : s.phase = .idle) : codecTurn s = .next s := by
  rw [codecTurn, h]

theorem codecTurn_of_run {s : State} (h : s.phase = .run) : codecTurn s = exec (decodeCmd s.opr) s := by
  rw [codecTurn, h]

/-- The host's next action is performed in the state without it. -/
theorem step_of_agenda {s : State} {a : HostAction} {rest : List HostAction} (h : s.agenda = a :: rest) :
    step s = hostTurn a { s with agenda := rest } := by
  rw [step, turn, h]

theorem step_of_pass {s : State} {rest : List HostAction} (h : s.agenda = .pass :: rest) :
    step s = codecTurn { s with agenda := rest } :=
  step_of_agenda h

/-- R82: a `WAIT` ends when `DONE = 1`. -/
theorem step_of_wait_done {s : State} {rest : List HostAction} (h : s.agenda = .wait :: rest) (hd : s.done = true) :
    step s = .next { s with agenda := rest } :=
  (step_of_agenda h).trans (if_pos hd)

/-- R82: while `DONE = 0` a `WAIT` stays on the agenda, and the codec has its turn. -/
theorem step_of_wait_not_done {s : State} {rest : List HostAction} (h : s.agenda = .wait :: rest)
    (hd : s.done = false) : step s = codecTurn s := by
  have hback : { s with agenda := .wait :: rest } = s := by rw [← h]
  calc step s = codecTurn { s with agenda := .wait :: rest } :=
        (step_of_agenda h).trans (if_neg (ne_true_of_eq_false hd))
    _ = codecTurn s := by rw [hback]

/-- Settles O5: in `IDLE` the write of `CMD` is the start of the command its word names. -/
theorem cmdWriteRunsDecodedInstr : Obligations.CmdWriteRunsDecodedInstr := by
  intro s c rest hp ha
  have hs : { s with agenda := .cmd c :: rest } = s := by rw [← ha]
  rw [← step_cmd_of_idle hp c rest, hs]

/-- Settles O6: in each of the three cases the step is the codec's turn, which in `RUN` goes by `OPR`. -/
theorem runningStepRunsLatchedInstr : Obligations.RunningStepRunsLatchedInstr := by
  refine fun s hp => ⟨fun ha => step_of_run ha hp, fun rest ha => ?_, fun rest ha hd => ?_⟩
  · exact (step_of_pass ha).trans (codecTurn_of_run (s := { s with agenda := rest }) hp)
  · exact (step_of_wait_not_done ha hd).trans (codecTurn_of_run hp)

/-- Settles O8: in the first three cases the step is the codec's turn, which in `IDLE` changes nothing. -/
theorem idleCodecTakesNoStep : Obligations.IdleCodecTakesNoStep := by
  refine fun s => ⟨fun hp ha => ?_, fun rest hp ha => ?_, fun rest hp ha hd => ?_, fun rest ha hd => ?_⟩
  · exact (step_of_no_agenda ha).trans (codecTurn_of_idle hp)
  · exact (step_of_pass ha).trans (codecTurn_of_idle (s := { s with agenda := rest }) hp)
  · exact (step_of_wait_not_done ha hd).trans (codecTurn_of_idle hp)
  · exact step_of_wait_done ha hd

/-- Settles O33: a step is one host access, which always answers, or the codec's turn, whose commands always answer. -/
theorem noStepStops : Obligations.NoStepStops := step_next

/-! ### Starts (R173) -/

/-- R40, R173: a start keeps the parameters, the operands, the buffer and the host. -/
theorem startStep_keeps (i : Instr) (s : State) :
    let t := startStep i s
    t.cfg = s.cfg ∧ t.val = s.val ∧ t.bsign = s.bsign ∧ t.bmag = s.bmag ∧ t.len = s.len ∧ t.buf = s.buf ∧
      t.epoch = s.epoch ∧ t.draws = s.draws ∧ t.agenda = s.agenda ∧ t.seen = s.seen := by
  cases i <;> exact ⟨rfl, rfl, rfl, rfl, rfl, rfl, rfl, rfl, rfl, rfl⟩

/-- Settles O10: in `IDLE` a command's step is its start step. -/
theorem startStepCommonWrites : Obligations.StartStepCommonWrites := fun i s hp =>
  ⟨startStep i s, exec_of_idle i hp, startStep_opr i s, startStep_phase i s, startStep_done i s, startStep_err i s,
    startStep_idx i s, startStep_keeps i s⟩

/-! ### The bound on a running command (R104, R125, R146, R180) -/

/-- The bound depends on `OPR`, `LEN` and `SIZE` only. -/
theorem commandBound_congr {s t : State} (hopr : t.opr = s.opr) (hlen : t.len = s.len) (hsize : t.size = s.size) :
    commandBound t = commandBound s := by
  rw [commandBound, commandBound, hopr, hlen, hsize]

/-- Each command's invariant keeps `IDX` below its bound. -/
theorem idx_lt_commandBound {s : State} (h : Inv s) (hp : s.phase = .run) : s.idx < commandBound s := by
  have hrun := h.running hp
  rw [commandBound]
  cases hc : decodeCmd s.opr with
  | encodeU64 =>
    obtain ⟨-, hidx⟩ := (commandOk_encodeU64 hc).1 hrun
    exact Nat.lt_succ_of_le hidx
  | decodeU64 =>
    obtain ⟨⟨hidx, -⟩, -⟩ := (commandOk_decodeU64 hc).1 hrun
    exact Nat.lt_succ_of_le hidx
  | encodeBigSigned =>
    obtain ⟨-, -, hidx, -⟩ := (commandOk_encodeBigSigned hc).1 hrun
    exact Nat.lt_succ_of_le hidx
  | decodeBigSigned =>
    obtain ⟨⟨hidx, -⟩, -⟩ := (commandOk_decodeBigSigned hc).1 hrun
    exact Nat.lt_succ_of_le hidx

/-- The command has ended: `PHASE = IDLE` and `DONE = 1` (R175, R193). -/
def State.ended (s : State) : Prop := s.phase = .idle ∧ s.done = true

/-- `t` is `s` one group further on, still running and with the same bound. -/
def State.advances (s t : State) : Prop :=
  t.phase = .run ∧ t.idx = s.idx + 1 ∧ commandBound t = commandBound s

/-- R56: an encoder's step ends the command with the last group, and goes on to the next one otherwise. -/
theorem append_ends_or_advances {s : State} (hp : s.phase = .run) (b : Byte) (last : Bool) :
    (s.append b last).ended ∨ s.advances (s.append b last) := by
  cases last with
  | true => exact .inl ⟨rfl, rfl⟩
  | false => exact .inr ⟨hp, rfl, commandBound_congr rfl rfl rfl⟩

/-- R170, R174, R180: every iteration ends the command or is one group nearer to its bound. -/
theorem exec_ends_or_advances (i : Instr) {s t : State} (hp : s.phase = .run) (ht : exec i s = .next t) :
    t.ended ∨ s.advances t := by
  cases i with
  | encodeU64 =>
    cases (exec_encodeU64_run hp).symm.trans ht
    exact append_ends_or_advances (s := { s with n := shr64 s.n }) hp _ _
  | encodeBigSigned =>
    cases (exec_encodeBigSigned_run hp).symm.trans ht
    exact append_ends_or_advances (s := { s with w := bigFilled s }) hp _ _
  | decodeU64 =>
    rw [exec_decodeU64_run hp] at ht
    rcases iterDecodeU64_inv ht with ⟨f, rfl⟩ | ⟨-, -, rfl⟩ | rfl
    · exact .inl ⟨rfl, rfl⟩
    · exact .inr ⟨hp, rfl, commandBound_congr rfl rfl rfl⟩
    · exact .inl ⟨rfl, rfl⟩
  | decodeBigSigned =>
    rw [exec_decodeBigSigned_run hp] at ht
    rcases iterDecodeBigSigned_inv ht with ⟨f, rfl⟩ | ⟨-, -, rfl⟩ | ⟨-, rfl⟩
    · exact .inl ⟨rfl, rfl⟩
    · exact .inr ⟨hp, rfl, commandBound_congr rfl rfl rfl⟩
    · exact .inl ⟨rfl, rfl⟩

/-- With `k` groups left up to its bound, a running command ends after at most `k` steps. -/
theorem steps_end_within (k : Nat) : ∀ {s : State}, Inv s → s.phase = .run → s.agenda = [] →
    s.idx + k = commandBound s → ∃ j t, 1 ≤ j ∧ j ≤ k ∧ steps j s = .next t ∧ t.ended := by
  induction k with
  | zero =>
    intro s h hp _ hk
    have hlt := idx_lt_commandBound h hp
    omega
  | succ k ih =>
    intro s h hp ha hk
    obtain ⟨t, ht⟩ := exec_next (decodeCmd s.opr) s
    have hs : step s = .next t := (step_of_run ha hp).trans ht
    rcases exec_ends_or_advances _ hp ht with hend | ⟨hrun, hidx, hbound⟩
    · exact ⟨1, t, le_rfl, by omega, steps_succ_next hs, hend⟩
    · obtain ⟨j, u, -, hjk, hju, hend⟩ :=
        ih (inv_iterate h hp ht) hrun ((exec_agenda ht).trans ha) (by omega)
      exact ⟨j + 1, u, by omega, by omega, (steps_succ_next hs).trans hju, hend⟩

/-- Settles O35: each iteration ends the command or raises `IDX`, which the invariant keeps below the bound. -/
theorem commandEndsWithinBound : Obligations.CommandEndsWithinBound := by
  intro s h hp ha
  obtain ⟨k, hk⟩ := Nat.exists_eq_add_of_le (idx_lt_commandBound h hp).le
  obtain ⟨j, t, hone, hjk, hsteps, hidle, hdone⟩ := steps_end_within k h hp ha hk.symm
  exact ⟨j, t, hone, by omega, hsteps, hidle, hdone⟩

end Sys2Proof.Machine
end

section
/-! PROOFS. The faults of the block (R185 to R194): what raises each one in an iteration step, and that raising it is
all the step does. -/

namespace Sys2Proof.Machine

/-! ### The encoders (R188) -/

/-- Settles O23: a start clears `ERR`, and an encoder's iteration leaves it as it was. -/
theorem encodersRaiseNoFault : Obligations.EncodersRaiseNoFault := by
  intro i s t hi ht hs
  cases hp : s.phase with
  | idle =>
    cases (exec_of_idle i hp).symm.trans ht
    exact startStep_err i s
  | run =>
    obtain ⟨-, -, -, -, -, hrun, -⟩ := encoderStepFrame i s t hi ht
    obtain ⟨-, herr⟩ := hrun hp
    exact herr.trans (hs.resolve_left (by simp [hp]))

/-! ### What raises a fault (R186, R187, R189) -/

/-- The check of the command `i` that fires at the group at `IDX`, with the fault it raises; no encoder has one. -/
inductive State.Raises (s : State) : Instr → ErrCode → Prop
  /-- R102: one of the three checks of `decodeU64`. -/
  | decodeU64 {f : ErrCode} (h : s.RaisesU64 s.idx f) : s.Raises .decodeU64 f
  /-- R137 line 1. -/
  | noGroup (hlen : s.len ≤ s.idx) : s.Raises .decodeBigSigned .invalidEncoding
  /-- R141: the magnitude of the result does not fit `MAGBITS`. -/
  | tooWide (hlen : s.idx < s.len) (hlast : Group.cont (s.memRead s.idx) = false)
      (hwide : s.magFits (endedBig s).2 = false) : s.Raises .decodeBigSigned .capacityExceeded

theorem raises_invalidEncoding_iff (i : Instr) (s : State) :
    s.Raises i .invalidEncoding ↔ (i = .decodeU64 ∨ i = .decodeBigSigned) ∧ s.len ≤ s.idx := by
  constructor
  · rintro (⟨⟨hlen⟩⟩ | ⟨hlen⟩)
    · exact ⟨.inl rfl, hlen⟩
    · exact ⟨.inr rfl, hlen⟩
  · rintro ⟨rfl | rfl, hlen⟩
    · exact .decodeU64 (.noGroup hlen)
    · exact .noGroup hlen

theorem raises_overflow_iff (i : Instr) (s : State) :
    s.Raises i .overflow ↔ i = .decodeU64 ∧ s.cfg.policy = .fault ∧ s.idx < s.len ∧
      (10 ≤ s.idx ∨ s.idx = 9 ∧ 2 ≤ (s.memRead 9).toNat % 128) := by
  constructor
  · rintro ⟨_ | ⟨hpol, hlen, hten⟩ | ⟨hpol, hlen, hnine, hwide⟩⟩
    · exact ⟨rfl, hpol, hlen, .inl hten⟩
    · exact ⟨rfl, hpol, hlen, .inr ⟨hnine, hnine ▸ hwide⟩⟩
  · rintro ⟨rfl, hpol, hlen, hten | ⟨hnine, hwide⟩⟩
    · exact .decodeU64 (.eleventhGroup hpol hlen hten)
    · exact .decodeU64 (.tenthTooWide hpol hlen hnine (hnine.symm ▸ hwide))

theorem raises_capacityExceeded_iff (i : Instr) (s : State) :
    s.Raises i .capacityExceeded ↔ i = .decodeBigSigned ∧ s.idx < s.len ∧ (s.memRead s.idx).toNat < 128 ∧
      s.magFits (bigResult (s.acc ||| (s.memRead s.idx).toNat % 128 * 2 ^ (7 * s.idx)) s.idx
        (s.memRead s.idx)).2 = false := by
  have hlast : Group.cont (s.memRead s.idx) = false ↔ (s.memRead s.idx).toNat < 128 := by
    rw [Group.cont_eq, decide_eq_false_iff_not, Nat.not_le]
  rw [← mergedBig_eq_or, ← endedBig, ← hlast]
  constructor
  · rintro (⟨⟨⟩⟩ | _ | ⟨hlen, hend, hwide⟩)
    exact ⟨rfl, hlen, hend, hwide⟩
  · rintro ⟨rfl, hlen, hend, hwide⟩
    exact .tooWide hlen hend hwide

/-! ### Taking a fault (R192, R193) -/

/-- R192: the check that fires ends the step with its fault. -/
theorem exec_of_raises {i : Instr} {s : State} {f : ErrCode} (hp : s.phase = .run) (h : s.Raises i f) :
    exec i s = .next (s.raise f) := by
  cases h with
  | decodeU64 h => exact (exec_decodeU64_run hp).trans (iterDecodeU64_of_raises h)
  | noGroup hlen => exact (exec_decodeBigSigned_run hp).trans (iterDecodeBigSigned_of_ge hlen)
  | tooWide hlen hlast hwide =>
    rw [exec_decodeBigSigned_run hp, iterDecodeBigSigned_of_lt hlen rfl (Prod.eta _).symm, hlast, hwide]
    rfl

/-- An error after an iteration that started without one was raised by one of the checks. -/
theorem raises_of_exec {i : Instr} {s t : State} (hp : s.phase = .run) (hs : s.err = .none)
    (ht : exec i s = .next t) (herr : t.err ≠ .none) : s.Raises i t.err := by
  cases i with
  | encodeU64 => exact absurd (encodersRaiseNoFault _ s t (.inl rfl) ht (.inr hs)) herr
  | encodeBigSigned => exact absurd (encodersRaiseNoFault _ s t (.inr rfl) ht (.inr hs)) herr
  | decodeU64 =>
    rw [exec_decodeU64_run hp] at ht
    rcases iterDecodeU64_cases s with ⟨hlen, hiter⟩ | ⟨hlen, hmany, hiter⟩ | ⟨hlen, -, hwide, hiter⟩ |
      ⟨-, -, -, -, hiter⟩ | ⟨-, -, -, -, hiter⟩ <;> cases hiter.symm.trans ht
    · exact .decodeU64 (.noGroup hlen)
    · obtain ⟨hpol, hten⟩ := (tooManyGroups_iff _ _).1 hmany
      exact .decodeU64 (.eleventhGroup hpol hlen hten)
    · obtain ⟨hpol, hnine, hbits⟩ := (tenthGroupTooWide_iff _ _ _).1 hwide
      exact .decodeU64 (.tenthTooWide hpol hlen hnine (Group.payload_toNat _ ▸ hbits))
    · exact absurd hs herr
    · exact absurd hs herr
  | decodeBigSigned =>
    rw [exec_decodeBigSigned_run hp] at ht
    rcases iterDecodeBigSigned_cases s with ⟨hlen, hiter⟩ | ⟨-, -, hiter⟩ | ⟨-, -, -, hiter⟩ |
      ⟨hlen, hlast, hwide, hiter⟩ <;> cases hiter.symm.trans ht
    · exact .noGroup hlen
    · exact absurd hs herr
    · exact absurd hs herr
    · exact .tooWide hlen hlast hwide

/-- Settles O21: the error was raised by a check, and a check that fires ends the step in `State.raise`. -/
theorem faultEntryWritesStatusOnly : Obligations.FaultEntryWritesStatusOnly := by
  intro i s t hp hs ht herr
  have hraise := exec_of_raises hp (raises_of_exec hp hs ht herr)
  exact Host.Outcome.next.inj (ht.symm.trans hraise)

/-- An iteration that starts without an error leaves the error `f` exactly when a check raises `f`. -/
theorem exec_err_iff_raises {i : Instr} {s t : State} {f : ErrCode} (hp : s.phase = .run) (hs : s.err = .none)
    (ht : exec i s = .next t) (hf : f ≠ .none) : t.err = f ↔ s.Raises i f := by
  constructor
  · rintro rfl
    exact raises_of_exec hp hs ht hf
  · intro h
    cases (exec_of_raises hp h).symm.trans ht
    exact s.raise_err f

/-- Settles O22: the causes of each fault are the checks that raise it. -/
theorem faultCauses : Obligations.FaultCauses := by
  intro i s t hp hs ht
  have hcause : ∀ f, f ≠ .none → (t.err = f ↔ s.Raises i f) := fun _ hf => exec_err_iff_raises hp hs ht hf
  exact ⟨(hcause _ (by decide)).trans (raises_invalidEncoding_iff i s),
    (hcause _ (by decide)).trans (raises_overflow_iff i s),
    (hcause _ (by decide)).trans (raises_capacityExceeded_iff i s)⟩

end Sys2Proof.Machine
end
